-- ==== Sys2Proof/Word.lean ====
section
/-! DEFINITION. The word type of the machine (00_scope.md R5, R6). -/

namespace Sys2Proof

/-- The one data width and the one address width: 8 bits, unsigned (R5 `DATA_WIDTH`, `ADDR_WIDTH`). -/
abbrev Byte := BitVec 8

end Sys2Proof
end

