-- ==== Sys2Proof/Config.lean ====
section
/-! DEFINITION. The implementation parameters of 00_scope.md R5, and the one value the spec leaves open. -/

namespace Sys2Proof

/-- The error a failed `load(image)` reports (60_exceptions.md R201). -/
inductive LoadError where
  /-- `ProgramTooLarge`: the image has more than 256 values. -/
  | tooLarge
  /-- An image value lies outside 0..255 (decision D7). -/
  | badValue
  deriving DecidableEq, Repr, Inhabited

/-- `MEM_SIZE` (R5): the number of 8-bit cells. -/
def Config.memSize : Nat := 256

/-- R5: the maximum program image length. -/
def Config.maxImageLength : Nat := 256

/-- FREE VALUE (log entry 6). Which of its two errors `load` reports for an image that is both too long and
holds a value outside 0..255: R201 and R205 state both errors and no order between them. -/
opaque Config.bothLoadErrors (image : List Int) : LoadError

end Sys2Proof
end

