-- ==== Sys2Proof/Syntax.lean ====
section
/-! DEFINITION. The instructions (30_encoding.md R70, R75): one constructor per row of the opcode table. -/

namespace Sys2Proof

/-- An instruction with its operand byte: `addr` in format M, `imm` in format I, none in format N (R70 to R73).
No operand denotes a register (R76). -/
inductive Instr where
  | hlt
  | lda (addr : Byte)
  | ldb (addr : Byte)
  | ldia (imm : Byte)
  | ldib (imm : Byte)
  | sta (addr : Byte)
  | stb (addr : Byte)
  | add (addr : Byte)
  | addi (imm : Byte)
  | sub (addr : Byte)
  | subi (imm : Byte)
  | outa
  | outi (imm : Byte)
  | jmp (addr : Byte)
  | jmpc (addr : Byte)
  | jmpnc (addr : Byte)
  | jmpz (addr : Byte)
  deriving DecidableEq, Repr

/-- The 17 mnemonics (00_scope.md R2): what an opcode byte alone selects. -/
inductive Mnemonic where
  | hlt | lda | ldb | ldia | ldib | sta | stb | add | addi | sub | subi | outa | outi | jmp | jmpc | jmpnc | jmpz
  deriving DecidableEq, Repr

/-- The three instruction formats of R70. -/
inductive Format where
  /-- N: no operand, 1 byte. -/
  | noOperand
  /-- M: a memory-address operand, 2 bytes. -/
  | address
  /-- I: an immediate operand, 2 bytes. -/
  | immediate
  deriving DecidableEq, Repr

/-- The type of the named parameter `OPCODE_OF` (92_eei_decisions.md D1: `Mnemonic → Fin 17`, a bijection). -/
abbrev OpcodeMap := Mnemonic → Fin 17

end Sys2Proof
end

