-- ==== Sys2Proof/WellFormed.lean ====
section
/-! DEFINITION. Well-formedness of what the outside gives the model: instructions, the parameter `OPCODE_OF`,
program images. -/

namespace Sys2Proof

/-- Every instruction term is well formed: an operand is a byte, and "Every operand byte value 0..255 is legal
for every 2-byte instruction. No operand value is reserved" (30_encoding.md R77). There is nothing to refuse. -/
def Instr.wf : Instr → Bool
  | .hlt => true
  | .lda _ => true
  | .ldb _ => true
  | .ldia _ => true
  | .ldib _ => true
  | .sta _ => true
  | .stb _ => true
  | .add _ => true
  | .addi _ => true
  | .sub _ => true
  | .subi _ => true
  | .outa => true
  | .outi _ => true
  | .jmp _ => true
  | .jmpc _ => true
  | .jmpnc _ => true
  | .jmpz _ => true

/-- The 17 mnemonics in the order of the source's opcode semantics table (R75). -/
def Mnemonic.all : List Mnemonic :=
  [.hlt, .lda, .ldb, .ldia, .ldib, .sta, .stb, .add, .addi, .sub, .subi, .outa, .outi, .jmp, .jmpc, .jmpnc, .jmpz]

/-- `OPCODE_OF` "must be a bijection" (D1): no two mnemonics share a number (and there are 17 of each). -/
def OpcodeMap.wf (f : OpcodeMap) : Bool := decide (Mnemonic.all.map f).Nodup

/-- An image value fits an 8-bit cell (60_exceptions.md R205, decision D7). -/
def imageValueOk (v : Int) : Bool := decide (0 ≤ v ∧ v ≤ 255)

/-- "`image` is a sequence of `n` values with `0 <= n <= 256`, each in 0..255" (70_reset_and_hazards.md R240). -/
def imageWf (image : List Int) : Bool :=
  decide (image.length ≤ Config.maxImageLength) && image.all imageValueOk

end Sys2Proof
end

