-- ==== Sys2Proof/Decode.lean ====
section
/-! DEFINITION. Decoding and encoding (30_encoding.md R70 to R77), over the named parameter `OPCODE_OF`. -/

namespace Sys2Proof

/-- `OPCODE_OF`, decision D1 (R75): the numbers of the opcode map. The spec's choice, not the source's (log entry 3). -/
def opcodeOf : OpcodeMap
  | .hlt => 0
  | .lda => 1
  | .ldb => 2
  | .ldia => 3
  | .ldib => 4
  | .sta => 5
  | .stb => 6
  | .add => 7
  | .addi => 8
  | .sub => 9
  | .subi => 10
  | .outa => 11
  | .outi => 12
  | .jmp => 13
  | .jmpc => 14
  | .jmpnc => 15
  | .jmpz => 16

/-- The opcode byte of a mnemonic; it is matched in all 8 bits (R75). -/
def opcodeByte (f : OpcodeMap) (m : Mnemonic) : Byte := BitVec.ofNat 8 (f m).val

/-- `OPCODE_OF⁻¹(op)` (40_execution_cycle.md R102): the mnemonic an opcode byte selects, `none` where it is invalid. -/
def mnemonicOf (f : OpcodeMap) (op : Byte) : Option Mnemonic :=
  Mnemonic.all.find? (fun m => opcodeByte f m == op)

/-- The format column of R70 and R75. -/
def formatOf : Mnemonic → Format
  | .hlt => .noOperand
  | .lda => .address
  | .ldb => .address
  | .ldia => .immediate
  | .ldib => .immediate
  | .sta => .address
  | .stb => .address
  | .add => .address
  | .addi => .immediate
  | .sub => .address
  | .subi => .immediate
  | .outa => .noOperand
  | .outi => .immediate
  | .jmp => .address
  | .jmpc => .address
  | .jmpnc => .address
  | .jmpz => .address

/-- Formats M and I have an operand byte, format N has none (R70). -/
def hasOperand (m : Mnemonic) : Bool :=
  match formatOf m with
  | .noOperand => false
  | .address => true
  | .immediate => true

/-- The instruction of a mnemonic and its operand byte (R76: used as it stands); format N takes no byte. -/
def buildInstr (m : Mnemonic) (x : Byte) : Instr :=
  match m with
  | .hlt => .hlt
  | .lda => .lda x
  | .ldb => .ldb x
  | .ldia => .ldia x
  | .ldib => .ldib x
  | .sta => .sta x
  | .stb => .stb x
  | .add => .add x
  | .addi => .addi x
  | .sub => .sub x
  | .subi => .subi x
  | .outa => .outa
  | .outi => .outi x
  | .jmp => .jmp x
  | .jmpc => .jmpc x
  | .jmpnc => .jmpnc x
  | .jmpz => .jmpz x

/-- An instruction's mnemonic. -/
def Instr.mnemonic : Instr → Mnemonic
  | .hlt => .hlt
  | .lda _ => .lda
  | .ldb _ => .ldb
  | .ldia _ => .ldia
  | .ldib _ => .ldib
  | .sta _ => .sta
  | .stb _ => .stb
  | .add _ => .add
  | .addi _ => .addi
  | .sub _ => .sub
  | .subi _ => .subi
  | .outa => .outa
  | .outi _ => .outi
  | .jmp _ => .jmp
  | .jmpc _ => .jmpc
  | .jmpnc _ => .jmpnc
  | .jmpz _ => .jmpz

/-- An instruction's operand byte: `addr` or `imm` (R72, R73), none in format N (R71). -/
def Instr.operand : Instr → Option Byte
  | .hlt => none
  | .lda x => some x
  | .ldb x => some x
  | .ldia x => some x
  | .ldib x => some x
  | .sta x => some x
  | .stb x => some x
  | .add x => some x
  | .addi x => some x
  | .sub x => some x
  | .subi x => some x
  | .outa => none
  | .outi x => some x
  | .jmp x => some x
  | .jmpc x => some x
  | .jmpnc x => some x
  | .jmpz x => some x

/-- Why a byte sequence is no instruction. -/
inductive DecodeError where
  /-- The first byte is not a valid opcode (R77). -/
  | invalidOpcode (op : Byte)
  /-- There is no byte at all (log entry 10: never so in the machine, whose memory wraps). -/
  | noOpcode
  /-- A 2-byte instruction's operand byte is missing (log entry 10). -/
  | noOperandByte (m : Mnemonic)
  deriving DecidableEq, Repr

/-- What decoding a byte sequence answers: an instruction and the bytes after it, or a refusal by name. -/
inductive Decoded where
  | ok (i : Instr) (rest : List Byte)
  | refused (e : DecodeError)
  deriving DecidableEq, Repr

/-- The instruction whose first byte is `op` (R70: "The opcode byte alone fixes the length"). -/
def decodeFrom (f : OpcodeMap) (op : Byte) (rest : List Byte) : Decoded :=
  match mnemonicOf f op with
  | none => .refused (.invalidOpcode op)
  | some m =>
    match hasOperand m, rest with
    | false, rest => .ok (buildInstr m 0) rest
    | true, [] => .refused (.noOperandByte m)
    | true, x :: rest => .ok (buildInstr m x) rest

/-- The decoder under an opcode assignment, total on any bytes. -/
def decodeWith (f : OpcodeMap) : List Byte → Decoded
  | [] => .refused .noOpcode
  | op :: rest => decodeFrom f op rest

/-- The decoder under decision D1. -/
def decode (bytes : List Byte) : Decoded := decodeWith opcodeOf bytes

/-- The bytes of an instruction in address order: the opcode at `p`, then the operand at `inc8(p)` (R53, R71 to R73). -/
def encodeWith (f : OpcodeMap) (i : Instr) : List Byte := opcodeByte f i.mnemonic :: i.operand.toList

/-- The encoder under decision D1. -/
def encode (i : Instr) : List Byte := encodeWith opcodeOf i

/-- The low `nbits` bits of `w`: every bit above is 0 (an operand byte the table gives no bits). -/
def tableWord (nbits w : Nat) : Nat := w % 2 ^ nbits

/-- The longest instruction's two bytes for a word numbered as the opcode table numbers it: the first byte is bits
7..0, the second is bits 15..8 (R53: the opcode byte comes first). -/
def tableBytes (nbits w : Nat) : Byte × Byte :=
  (BitVec.ofNat 8 (tableWord nbits w), BitVec.ofNat 8 (tableWord nbits w / 256))

/-- The instruction the decoder reads from a table word. -/
def decodeTableWord (nbits w : Nat) : Option Instr :=
  match decode [(tableBytes nbits w).1, (tableBytes nbits w).2] with
  | .ok i _ => some i
  | .refused _ => none

end Sys2Proof
end

