-- ==== Sys2Proof/Machine/State.lean ====
section
/-! DEFINITION. The machine's state (10_state.md R20) and its reset value (R38). -/

namespace Sys2Proof.Machine

/-- The 256 cells of `mem` (R35) as (address, byte) pairs: addresses strictly rising, no entry equal to the 0 that an
unlisted address reads as (`Memory.wf` in Machine/Ops.lean). -/
abbrev Memory := List Host.Cell

/-- The core's whole state. Every field but the last is a row of R20. -/
structure State where
  /-- `mem[0..255]` (R35). -/
  mem : Memory
  /-- Program counter: "address of next instruction byte" (R25). -/
  pc : Byte
  /-- General register and accumulator (R22). -/
  a : Byte
  /-- General register (R23). -/
  b : Byte
  /-- Output latch (R33). -/
  o : Byte
  /-- Carry / no-borrow flag (R27). -/
  c : Bool
  /-- Zero flag (R28). -/
  z : Bool
  /-- Halt status (R31). -/
  halted : Bool
  /-- Fault status (R32, decision D5). -/
  fault : Bool
  /-- Fault record: the invalid opcode byte (R32, decision D5). -/
  faultOpcode : Byte
  /-- Fault record: the address the invalid opcode was fetched from (R32, decision D5). -/
  faultPc : Byte
  /-- DESIGN CHOICE (log entry 4): the model's own record of the output port's events `Out(v)`, oldest first
  (44_output.md R172, decision D4). Nothing the core does reads it. -/
  outEvents : List Byte
  deriving DecidableEq, Repr

/-- Why `step` stops with a fault. No instruction's meaning raises one (60_exceptions.md R201). -/
inductive Fault where
  /-- Raised by `step` alone, on a core whose `fault` status is set: a faulted core takes no step
  (40_execution_cycle.md R100; 93_implementation_defined.md I3: stuck). Safe: nothing can be proved of a step the
  spec says does not exist (log entry 1). -/
  | coreFaulted
  deriving DecidableEq, Repr

/-- Why `step` has no transition to give. No instruction's meaning answers one. -/
inductive Refusal where
  /-- Raised by `exec`'s arm for an instruction that has no meaning yet: none in this model. Safe. -/
  | notModelled (mnemonic : String)
  /-- Raised by `step` alone, on a halted core: it takes no step (R100; I1: stuck, "so the model does not use it as a
  fault"). Safe: nothing can be proved of a step the spec says does not exist (log entry 1). -/
  | coreHalted
  deriving DecidableEq, Repr

/-- What `raise InvalidOpcode(opcode = op, pc = p)` carries (40_execution_cycle.md R107). -/
structure InvalidOpcodeInfo where
  opcode : Byte
  pc : Byte
  deriving DecidableEq, Repr

/-- Every field at its value of R38, with the empty image (60_exceptions.md R205: "An empty image is accepted and
gives an all-zero memory"); how a program comes to run from here is log entry 5. -/
def State.reset : State where
  mem := []
  pc := 0
  a := 0
  b := 0
  o := 0
  c := false
  z := false
  halted := false
  fault := false
  faultOpcode := 0
  faultPc := 0
  outEvents := []

end Sys2Proof.Machine
end

