-- ==== Sys2Proof/Machine/Ops.lean ====
section
/-! DEFINITION. The named operations over registers, memory, flags, status and the output port (00_scope.md R7), the
parts of a step (40_execution_cycle.md R100 to R103), and taking the one exception (60_exceptions.md R202). -/

namespace Sys2Proof.Machine

/-! ### Values -/

/-- The unsigned integer a byte stands for; the ISA has no signed interpretation (R6). -/
def uint (v : Byte) : Int := v.toNat

/-- `v mod 256`, the floor modulus of R6, as a byte. -/
def wrap8 (v : Int) : Byte := BitVec.ofInt 8 v

/-- `inc8(x) = (x + 1) mod 256` (R7). -/
def inc8 (x : Byte) : Byte := wrap8 (uint x + 1)

/-! ### Memory (20_memory.md R50 to R57) -/

/-- What an address not listed reads as: 0, the reset content of a cell the image does not reach (R38, R57). -/
def Memory.unlisted : Byte := 0

/-- The content of a cell. -/
def Memory.read : Memory → Nat → Byte
  | [], _ => Memory.unlisted
  | (k, x) :: m, addr => if k = addr then x else Memory.read m addr

/-- The memory without an entry for `addr`. -/
def Memory.erase (m : Memory) (addr : Nat) : Memory := m.filter (fun cell => cell.1 != addr)

/-- The memory with an entry put in at its place in the rising order. -/
def Memory.insert : Memory → Nat → Byte → Memory
  | [], addr, v => [(addr, v)]
  | (k, x) :: m, addr, v => if addr < k then (addr, v) :: (k, x) :: m else (k, x) :: Memory.insert m addr v

/-- Sets one cell and keeps the canonical form: the value an unlisted address reads as is not listed. -/
def Memory.write (m : Memory) (addr : Nat) (v : Byte) : Memory :=
  if v = Memory.unlisted then Memory.erase m addr else Memory.insert (Memory.erase m addr) addr v

/-- The canonical form from address `lo` up: addresses strictly rising and below 256, no entry equal to what an
unlisted address reads as. -/
def Memory.wfFrom : Nat → Memory → Bool
  | _, [] => true
  | lo, (k, x) :: m =>
    decide (lo ≤ k) && decide (k < Config.memSize) && decide (x ≠ Memory.unlisted) && Memory.wfFrom (k + 1) m

/-- The memory is in its canonical form. -/
def Memory.wf (m : Memory) : Bool := Memory.wfFrom 0 m

/-- `MemRead(addr, 1)` (R52): every 8-bit address is a cell (R51). -/
def memRead (s : State) (addr : Byte) : Byte := Memory.read s.mem addr.toNat

/-- `MemWrite(addr, 1, v)` (R52): sets the cell to `v mod 256`. -/
def memWrite (addr : Byte) (v : Int) (s : State) : State := { s with mem := Memory.write s.mem addr.toNat (wrap8 v) }

/-! ### Registers (10_state.md R21 to R25, R33) -/

/-- The four 8-bit registers of R21. -/
inductive Reg where
  | pc | a | b | o
  deriving DecidableEq, Repr

/-- Reads a register. -/
def readReg (r : Reg) (s : State) : Byte :=
  match r with
  | .pc => s.pc
  | .a => s.a
  | .b => s.b
  | .o => s.o

/-- `write_register(r, v)` "stores `value mod 256`; no error path" (R21). Every register write goes through it. -/
def writeReg (r : Reg) (v : Int) (s : State) : State :=
  match r with
  | .pc => { s with pc := wrap8 v }
  | .a => { s with a := wrap8 v }
  | .b => { s with b := wrap8 v }
  | .o => { s with o := wrap8 v }

/-! ### Flags, halt status and output port -/

/-- `C <- b` (R27). -/
def setC (v : Bool) (s : State) : State := { s with c := v }

/-- `Z <- b` (R28). -/
def setZ (v : Bool) (s : State) : State := { s with z := v }

/-- `halted <- true` (R31). -/
def setHalted (s : State) : State := { s with halted := true }

/-- `emit Out(v)` (44_output.md R172): records one output-port event after the earlier ones. -/
def emitOut (v : Byte) (s : State) : State := { s with outEvents := s.outEvents ++ [v] }

/-! ### The parts of a step -/

/-- One fetch, of the opcode (R101) and of the operand byte (R103) alike: the byte at `PC`, then `PC <- inc8(PC)`. -/
def fetchByte (s : State) : Byte × State := (memRead s s.pc, writeReg .pc (uint (inc8 s.pc)) s)

/-- What the fetch and decode of a step end in. -/
inductive Fetched where
  /-- A valid instruction, and the state with `PC` past its bytes. -/
  | instr (i : Instr) (s : State)
  /-- An invalid opcode byte, and the state with `PC` past that byte. -/
  | invalid (info : InvalidOpcodeInfo) (s : State)
  deriving DecidableEq, Repr

/-- The operand fetch of R103: formats M and I fetch one byte, format N fetches none. -/
def fetchOperand (m : Mnemonic) (s : State) : Fetched :=
  match hasOperand m with
  | false => .instr (buildInstr m 0) s
  | true => .instr (buildInstr m (fetchByte s).1) (fetchByte s).2

/-- R101, R102 and R103 in the order of R107. -/
def fetchInstr (f : OpcodeMap) (s : State) : Fetched :=
  match mnemonicOf f (fetchByte s).1 with
  | none => .invalid { opcode := (fetchByte s).1, pc := s.pc } (fetchByte s).2
  | some m => fetchOperand m (fetchByte s).2

/-- TAKING THE EXCEPTION: `raise InvalidOpcode(info)` (60_exceptions.md R202), on a state whose `PC` is already past
the opcode byte. There is no vector, no saved status, no mode change and no return (R203, R204). -/
def raiseInvalidOpcode (info : InvalidOpcodeInfo) (s : State) : State :=
  { s with fault := true, faultOpcode := info.opcode, faultPc := info.pc }

/-- R100: a faulted or halted core takes no step (log entries 1 and 2). -/
def stoppedCore (s : State) : Option (Host.Outcome State Fault Refusal) :=
  if s.fault then some (.fault .coreFaulted) else if s.halted then some (.refused .coreHalted) else none

/-- The state with an instruction's two bytes placed where the next fetch reads them: at `PC` and at `inc8(PC)`. -/
def placeBytes (first second : Byte) (s : State) : State :=
  memWrite s.pc (uint first) (memWrite (inc8 s.pc) (uint second) s)

end Sys2Proof.Machine
end

