-- ==== Sys2Proof/Machine/Flags.lean ====
section
/-! DEFINITION. The ALU and every flag computation (43_arithmetic.md R150). -/

namespace Sys2Proof.Machine

/-- What an ALU operation yields: an 8-bit result and a carry. -/
structure AluResult where
  carry : Bool
  result : Byte
  deriving DecidableEq, Repr

/-- `alu_add(a, v)`: the carry is `s > 255` of the unwrapped sum. -/
def aluAdd (a v : Byte) : AluResult :=
  { carry := decide (uint a + uint v > 255), result := wrap8 (uint a + uint v) }

/-- `alu_sub(a, v)`: the carry is `d > -1` of the unwrapped difference, "no borrow". -/
def aluSub (a v : Byte) : AluResult :=
  { carry := decide (uint a - uint v > -1), result := wrap8 (uint a - uint v) }

/-- `zero(result)`. -/
def zeroFlag (result : Byte) : Bool := decide (result = 0)

end Sys2Proof.Machine
end

