-- ==== Sys2Proof/Machine/Operands.lean ====
section
/-! DEFINITION. The two addressing modes (42_load_store.md R130; 30_encoding.md R76). -/

namespace Sys2Proof.Machine

/-- Direct mode: the operand byte is the effective address as it stands, `ea = x`. -/
def effectiveAddress (x : Byte) : Byte := x

/-- Direct mode, read: the content of the cell the operand byte names. -/
def directValue (x : Byte) (s : State) : Byte := memRead s (effectiveAddress x)

/-- Direct mode, write: the whole cell the operand byte names. -/
def directStore (x : Byte) (v : Byte) (s : State) : State := memWrite (effectiveAddress x) (uint v) s

/-- Immediate mode: the value is the operand byte itself, with no memory access. -/
def immediateValue (x : Byte) : Byte := x

/-- A jump's target is the operand byte, absolute (R76, 45_control.md R180). -/
def jumpTarget (x : Byte) : Byte := x

end Sys2Proof.Machine
end

