-- ==== Sys2Proof/Machine/Arithmetic.lean ====
section
/-! DEFINITION. ADD, ADDI, SUB and SUBI (43_arithmetic.md R151 to R156). -/

namespace Sys2Proof.Machine

/-- The shared body, in the order of R151 and R152: `B <- v`; `C` from the old `A`; `A` wrapped; `Z` from the new `A`. -/
def arithmetic (alu : Byte → Byte → AluResult) (v : Byte) (s : State) : State :=
  let s1 := writeReg .b (uint v) s
  let r := alu (readReg .a s1) v
  let s2 := setC r.carry s1
  let s3 := writeReg .a (uint r.result) s2
  setZ (zeroFlag (readReg .a s3)) s3

/-- R153: `v <- MemRead(x, 1)`, then add. -/
def execAdd (x : Byte) (s : State) : Host.Outcome State Fault Refusal := .next (arithmetic aluAdd (directValue x s) s)

/-- R154: `v <- x`, then add. -/
def execAddi (x : Byte) (s : State) : Host.Outcome State Fault Refusal := .next (arithmetic aluAdd (immediateValue x) s)

/-- R155: `v <- MemRead(x, 1)`, then subtract. -/
def execSub (x : Byte) (s : State) : Host.Outcome State Fault Refusal := .next (arithmetic aluSub (directValue x s) s)

/-- R156: `v <- x`, then subtract. -/
def execSubi (x : Byte) (s : State) : Host.Outcome State Fault Refusal := .next (arithmetic aluSub (immediateValue x) s)

end Sys2Proof.Machine
end

