-- ==== Sys2Proof/Machine/Control.lean ====
section
/-! DEFINITION. HLT (41_halt.md R120) and the jumps (45_control.md R180 to R184). -/

namespace Sys2Proof.Machine

/-- R120: `halted <- true`. -/
def execHlt (s : State) : Host.Outcome State Fault Refusal := .next (setHalted s)

/-- R180: taken, `PC <- x`; not taken, `PC` stays at the fall-through address the operand fetch left. -/
def jumpIf (taken : Bool) (x : Byte) (s : State) : State :=
  if taken then writeReg .pc (uint (jumpTarget x)) s else s

/-- R181: unconditionally. -/
def execJmp (x : Byte) (s : State) : Host.Outcome State Fault Refusal := .next (jumpIf true x s)

/-- R182: if `C`. -/
def execJmpc (x : Byte) (s : State) : Host.Outcome State Fault Refusal := .next (jumpIf s.c x s)

/-- R183: if not `C`. -/
def execJmpnc (x : Byte) (s : State) : Host.Outcome State Fault Refusal := .next (jumpIf (!s.c) x s)

/-- R184: if `Z`. -/
def execJmpz (x : Byte) (s : State) : Host.Outcome State Fault Refusal := .next (jumpIf s.z x s)

end Sys2Proof.Machine
end

