-- ==== Sys2Proof/Machine/LoadStore.lean ====
section
/-! DEFINITION. Loads and stores (42_load_store.md R131 to R136). A meaning starts after the step's fetches, with `PC`
past the instruction's bytes (40_execution_cycle.md R104). -/

namespace Sys2Proof.Machine

/-- R131: `A <- MemRead(x, 1)`. -/
def execLda (x : Byte) (s : State) : Host.Outcome State Fault Refusal :=
  .next (writeReg .a (uint (directValue x s)) s)

/-- R132: `B <- MemRead(x, 1)`. -/
def execLdb (x : Byte) (s : State) : Host.Outcome State Fault Refusal :=
  .next (writeReg .b (uint (directValue x s)) s)

/-- R133: `A <- x`. -/
def execLdia (x : Byte) (s : State) : Host.Outcome State Fault Refusal :=
  .next (writeReg .a (uint (immediateValue x)) s)

/-- R134: `B <- x`. -/
def execLdib (x : Byte) (s : State) : Host.Outcome State Fault Refusal :=
  .next (writeReg .b (uint (immediateValue x)) s)

/-- R135: `MemWrite(x, 1, A)`. -/
def execSta (x : Byte) (s : State) : Host.Outcome State Fault Refusal :=
  .next (directStore x (readReg .a s) s)

/-- R136: `MemWrite(x, 1, B)`. -/
def execStb (x : Byte) (s : State) : Host.Outcome State Fault Refusal :=
  .next (directStore x (readReg .b s) s)

end Sys2Proof.Machine
end

