-- ==== Sys2Proof/Machine/Output.lean ====
section
/-! DEFINITION. OUTA and OUTI (44_output.md R170 to R172). -/

namespace Sys2Proof.Machine

/-- `O <- v` and `emit Out(v)`. -/
def output (v : Byte) (s : State) : State := emitOut v (writeReg .o (uint v) s)

/-- R170: `O <- A; emit Out(A)`. -/
def execOuta (s : State) : Host.Outcome State Fault Refusal := .next (output (readReg .a s) s)

/-- R171: `O <- x; emit Out(x)`. -/
def execOuti (x : Byte) (s : State) : Host.Outcome State Fault Refusal := .next (output (immediateValue x) s)

end Sys2Proof.Machine
end

