-- ==== Sys2Proof/Machine/Dispatch.lean ====
section
/-! DEFINITION. The exhaustive dispatch of 40_execution_cycle.md R107: one arm per instruction. -/

namespace Sys2Proof.Machine

/-- R104: applies the instruction's rule to the state whose `PC` is past the instruction's bytes. -/
def exec (i : Instr) (s : State) : Host.Outcome State Fault Refusal :=
  match i with
  | .hlt => Sys2Proof.Machine.execHlt s
  | .lda x => Sys2Proof.Machine.execLda x s
  | .ldb x => Sys2Proof.Machine.execLdb x s
  | .ldia x => Sys2Proof.Machine.execLdia x s
  | .ldib x => Sys2Proof.Machine.execLdib x s
  | .sta x => Sys2Proof.Machine.execSta x s
  | .stb x => Sys2Proof.Machine.execStb x s
  | .add x => Sys2Proof.Machine.execAdd x s
  | .addi x => Sys2Proof.Machine.execAddi x s
  | .sub x => Sys2Proof.Machine.execSub x s
  | .subi x => Sys2Proof.Machine.execSubi x s
  | .outa => Sys2Proof.Machine.execOuta s
  | .outi x => Sys2Proof.Machine.execOuti x s
  | .jmp x => Sys2Proof.Machine.execJmp x s
  | .jmpc x => Sys2Proof.Machine.execJmpc x s
  | .jmpnc x => Sys2Proof.Machine.execJmpnc x s
  | .jmpz x => Sys2Proof.Machine.execJmpz x s

end Sys2Proof.Machine
end

