-- ==== Sys2Proof/Machine/Step.lean ====
section
/-! DEFINITION. The step (40_execution_cycle.md R107). -/

namespace Sys2Proof.Machine

/-- R107 under an opcode assignment: no step of a stopped core; else fetch and decode; then the exception or the
instruction's rule. -/
def stepWith (f : OpcodeMap) (s : State) : Host.Outcome State Fault Refusal :=
  match stoppedCore s with
  | some stop => stop
  | none =>
    match fetchInstr f s with
    | .invalid info s1 => .next (raiseInvalidOpcode info s1)
    | .instr i s1 => exec i s1

/-- The step under decision D1. -/
def step (s : State) : Host.Outcome State Fault Refusal := stepWith opcodeOf s

/-- `s` with a table word's bytes stored where `step` fetches its next instruction. -/
def State.withFetchWord (s : State) (nbits w : Nat) : State :=
  placeBytes (tableBytes nbits w).1 (tableBytes nbits w).2 s

end Sys2Proof.Machine
end

