-- ==== Sys2Proof/Machine/Loader.lean ====
section
/-! DEFINITION. Reset: the host operation `load(image)` (70_reset_and_hazards.md R240, R241; 60_exceptions.md R205). -/

namespace Sys2Proof.Machine

/-- What `load` answers (decision D5: `Ok`, `TooLarge` or `BadValue`). -/
inductive LoadResult where
  | ok (s : State)
  | failed (e : LoadError)
  deriving DecidableEq, Repr

/-- Places image values from address `k` on, in order (R241). -/
def placeImage : Nat → List Int → Memory → Memory
  | _, [], m => m
  | k, v :: vs, m => placeImage (k + 1) vs (Memory.write m k (wrap8 v))

/-- The state a successful load leaves (R241): the image from address 0, zeros after it, every other field reset. -/
def loadedState (image : List Int) : State := { State.reset with mem := placeImage 0 image [] }

/-- The error of an image that is not well formed (R201, R205). Where both apply the spec gives no order, and the
answer is a free value (log entry 6). -/
def loadError (image : List Int) : LoadError :=
  if Config.maxImageLength < image.length then
    if image.all imageValueOk then .tooLarge else Config.bothLoadErrors image
  else .badValue

/-- `load(image)`: it "checks the image before it changes anything" (R240). -/
def load (image : List Int) : LoadResult :=
  if imageWf image then .ok (loadedState image) else .failed (loadError image)

/-- `load` over what the host has: no machine yet (`none`, R243 "no machine before construction") or a core. "If a
core existed before the load, it keeps its old state" when the load fails (R205, decision D8). -/
def hostLoad (image : List Int) (existing : Option State) : LoadResult × Option State :=
  match load image with
  | .ok s => (.ok s, some s)
  | .failed e => (.failed e, existing)

end Sys2Proof.Machine
end

