-- ==== Sys2Proof/Machine/Ports.lean ====
section
/-! DEFINITION. What the block shows on its interfaces (10_state.md R37): the step outcome, the status and output
ports, and the memory port's accesses. All are functions of the state; none is state. -/

namespace Sys2Proof.Machine

/-- The three outcomes of a step (40_execution_cycle.md R106, decision D5). -/
inductive StepResult where
  | running | halted | faulted
  deriving DecidableEq, Repr

/-- R106, read off the state after the step. -/
def resultOf (t : State) : StepResult :=
  if t.fault then .faulted else if t.halted then .halted else .running

/-- The outcome `step()` returns to the host; `none` where there is no step (R100). -/
def stepResultWith (f : OpcodeMap) (s : State) : Option StepResult :=
  match stepWith f s with
  | .next t => some (resultOf t)
  | .fault _ => none
  | .refused _ => none

/-- The host's run loop (R108), stopped after at most `k` steps: it invokes `step()` as long as there is a step, and
leaves the state where it is (R100, 60_exceptions.md R214) when there is none. -/
def runLoop (f : OpcodeMap) : Nat → State → State
  | 0, s => s
  | k + 1, s =>
    match stepWith f s with
    | .next t => runLoop f k t
    | .fault _ => s
    | .refused _ => s

/-- The status port (R37). -/
structure StatusPort where
  halted : Bool
  fault : Bool
  faultOpcode : Byte
  faultPc : Byte
  deriving DecidableEq, Repr

/-- What the status port shows. -/
def statusPort (s : State) : StatusPort :=
  { halted := s.halted, fault := s.fault, faultOpcode := s.faultOpcode, faultPc := s.faultPc }

/-- The output port's level: "the current value of `O`" (44_output.md R172). -/
def outputLevel (s : State) : Byte := s.o

/-- One access on the memory port (20_memory.md R58, decision D12). -/
inductive Access where
  | read (addr value : Byte)
  | write (addr value : Byte)
  deriving DecidableEq, Repr

/-- The data access of an instruction, if it makes one (R58). -/
def dataAccess (i : Instr) (s : State) : List Access :=
  match i with
  | .lda x => [.read x (memRead s x)]
  | .ldb x => [.read x (memRead s x)]
  | .add x => [.read x (memRead s x)]
  | .sub x => [.read x (memRead s x)]
  | .sta x => [.write x s.a]
  | .stb x => [.write x s.b]
  | .hlt => []
  | .ldia _ => []
  | .ldib _ => []
  | .addi _ => []
  | .subi _ => []
  | .outa => []
  | .outi _ => []
  | .jmp _ => []
  | .jmpc _ => []
  | .jmpnc _ => []
  | .jmpz _ => []

/-- The operand fetch's access: one read at `inc8(p)` in formats M and I (R58). -/
def operandAccess (m : Mnemonic) (s : State) : List Access :=
  if hasOperand m then [.read (inc8 s.pc) (memRead s (inc8 s.pc))] else []

/-- The accesses of one step in their order, and no others (R58); none where there is no step. -/
def stepAccesses (f : OpcodeMap) (s : State) : List Access :=
  match stoppedCore s with
  | some _ => []
  | none =>
    .read s.pc (memRead s s.pc) ::
      match mnemonicOf f (memRead s s.pc) with
      | none => []
      | some m => operandAccess m s ++ dataAccess (buildInstr m (memRead s (inc8 s.pc))) s

end Sys2Proof.Machine
end

