-- ==== Sys2Proof/Safety.lean ====
section
/-! DEFINITION. The terms claims are stated in: a core that takes steps, an instruction at the program counter, the
ends of a run, and the machine's invariant. -/

namespace Sys2Proof.Machine

/-- "The core takes a step only when `halted = false` and `fault = false`" (40_execution_cycle.md R100). -/
def State.running (s : State) : Bool := !s.halted && !s.fault

/-- The bytes of `i` stand at the program counter: the opcode at `p`, the operand (if any) at `inc8(p)` (R70). -/
abbrev State.holdsAtPc (f : OpcodeMap) (s : State) (i : Instr) : Prop :=
  memRead s s.pc = opcodeByte f i.mnemonic ∧ (i.operand = none ∨ i.operand = some (memRead s (s.pc + 1)))

/-- A step of `s` fetches `i`: the core steps and `i` stands at the program counter. -/
abbrev State.fetches (f : OpcodeMap) (s : State) (i : Instr) : Prop := s.running = true ∧ s.holdsAtPc f i

/-- The byte at the program counter is no valid opcode, and the core steps (30_encoding.md R77). -/
abbrev State.fetchesInvalid (s : State) : Prop := s.running = true ∧ 16 < (memRead s s.pc).toNat

/-- The state the instruction's rule starts from (R104): `PC` past the instruction's 1 or 2 bytes. -/
def State.pastInstr (s : State) (i : Instr) : State :=
  { s with pc := s.pc + (if i.operand = none then 1 else 2) }

/-- "A run ends successfully exactly when `halted = true`" (R110). -/
def State.succeeded (s : State) : Bool := s.halted

/-- "A state with `fault = true` is the end of a failed run" (R110). -/
def State.failed (s : State) : Bool := s.fault

/-- The machine's invariant: memory in its canonical form; `halted` and `fault` never both (R110); a halted core
stands just past a HLT byte (R120); a faulted core stands just past the invalid byte its record names (R202, R203);
a core that has not faulted has the reset fault record (R32). -/
structure State.Inv (f : OpcodeMap) (s : State) : Prop where
  memCanonical : Memory.wf s.mem = true
  notBoth : ¬ (s.halted = true ∧ s.fault = true)
  haltedPastHlt : s.halted = true → memRead s (s.pc - 1) = opcodeByte f .hlt
  faultRecord : s.fault = true →
    16 < s.faultOpcode.toNat ∧ memRead s s.faultPc = s.faultOpcode ∧ s.pc = s.faultPc + 1
  noFaultRecord : s.fault = false → s.faultOpcode = 0 ∧ s.faultPc = 0

end Sys2Proof.Machine
end

