-- ==== Sys2Proof/Certificates/Slice0/Obligations.lean ====
section
/-! DEFINITION. The statements for the provers. `f` is the named parameter `OPCODE_OF` (92_eei_decisions.md D1): where a
statement says "for every `f`", it does not rest on the numbers that D1 chooses. `s.fetches f i` says that the core steps
and the bytes of `i` stand at the program counter. -/

open Sys2Proof Sys2Proof.Machine

/-! ### Encoding and decoding -/

/-- 30_encoding.md R75, row by row: the opcode byte alone gives the mnemonic and the length, the next byte is the
operand. The numbers are the spec's decision D1 (log entry 3). -/
def Obligations.OpcodeTableRowsDecode : Prop :=
  ∀ (x : Byte) (rest : List Byte),
    decode (0x00 :: rest) = .ok .hlt rest ∧
    decode (0x01 :: x :: rest) = .ok (.lda x) rest ∧
    decode (0x02 :: x :: rest) = .ok (.ldb x) rest ∧
    decode (0x03 :: x :: rest) = .ok (.ldia x) rest ∧
    decode (0x04 :: x :: rest) = .ok (.ldib x) rest ∧
    decode (0x05 :: x :: rest) = .ok (.sta x) rest ∧
    decode (0x06 :: x :: rest) = .ok (.stb x) rest ∧
    decode (0x07 :: x :: rest) = .ok (.add x) rest ∧
    decode (0x08 :: x :: rest) = .ok (.addi x) rest ∧
    decode (0x09 :: x :: rest) = .ok (.sub x) rest ∧
    decode (0x0A :: x :: rest) = .ok (.subi x) rest ∧
    decode (0x0B :: rest) = .ok .outa rest ∧
    decode (0x0C :: x :: rest) = .ok (.outi x) rest ∧
    decode (0x0D :: x :: rest) = .ok (.jmp x) rest ∧
    decode (0x0E :: x :: rest) = .ok (.jmpc x) rest ∧
    decode (0x0F :: x :: rest) = .ok (.jmpnc x) rest ∧
    decode (0x10 :: x :: rest) = .ok (.jmpz x) rest

/-- Decode and encode agree: under every opcode assignment that is a bijection, an instruction's bytes, whatever
follows them, decode to that instruction and leave what follows. Every instruction is well formed (R77). -/
def Obligations.DecodeOfEncodeIsTheInstruction : Prop :=
  ∀ (f : OpcodeMap), f.wf = true → ∀ (i : Instr) (rest : List Byte),
    i.wf = true ∧ decodeWith f (encodeWith f i ++ rest) = .ok i rest

/-- The other direction: bytes that decode are the encoding of the instruction they decode to. No two byte sequences
stand for one instruction. -/
def Obligations.DecodedBytesAreTheEncoding : Prop :=
  ∀ (f : OpcodeMap) (bytes : List Byte) (i : Instr) (rest : List Byte),
    decodeWith f bytes = .ok i rest → bytes = encodeWith f i ++ rest

/-- 30_encoding.md R70: the three formats, their instructions and lengths, what stands at `p` and at `inc8(p)`; and
"The opcode byte alone fixes the length". -/
def Obligations.OpcodeByteFixesFormatAndLength : Prop :=
  Mnemonic.all.filter (fun m => formatOf m = .noOperand) = [.hlt, .outa] ∧
  Mnemonic.all.filter (fun m => formatOf m = .address) =
    [.lda, .ldb, .sta, .stb, .add, .sub, .jmp, .jmpc, .jmpnc, .jmpz] ∧
  Mnemonic.all.filter (fun m => formatOf m = .immediate) = [.ldia, .ldib, .addi, .subi, .outi] ∧
  (∀ (f : OpcodeMap) (i : Instr),
    (formatOf i.mnemonic = .noOperand → encodeWith f i = [opcodeByte f i.mnemonic]) ∧
    (formatOf i.mnemonic ≠ .noOperand → ∃ x, i.operand = some x ∧ encodeWith f i = [opcodeByte f i.mnemonic, x])) ∧
  ∀ (f : OpcodeMap), f.wf = true → ∀ i j : Instr, (encodeWith f i).head? = (encodeWith f j).head? →
    formatOf i.mnemonic = formatOf j.mnemonic ∧ (encodeWith f i).length = (encodeWith f j).length

/-- 30_encoding.md R77: a byte above 16 is refused as an opcode, each byte up to 16 is the opcode of one mnemonic whose
every operand byte is legal, and a step faults exactly when it fetches an invalid byte as the opcode. The fault status
that shows it is the spec's decision D5. -/
def Obligations.OpcodeBytesAbove16AreInvalid : Prop :=
  ∀ (f : OpcodeMap), f.wf = true →
    (∀ (op : Byte) (rest : List Byte),
      (16 < op.toNat → decodeWith f (op :: rest) = .refused (.invalidOpcode op)) ∧
      (op.toNat ≤ 16 → ∃ m : Mnemonic, opcodeByte f m = op ∧
        ∀ x : Byte, ∃ i r, decodeWith f (op :: x :: rest) = .ok i r ∧ i.mnemonic = m ∧
          (formatOf m = .noOperand ∨ i.operand = some x))) ∧
    ∀ s : State, s.running = true →
      ((∃ t, stepWith f s = .next t ∧ t.fault = true) ↔ 16 < (memRead s s.pc).toNat)

/-! ### The step -/

/-- 40_execution_cycle.md R101 to R104: a running core whose bytes at `PC` and `inc8(PC)` decode to `i` (decision D1)
runs `i`'s rule from the state whose `PC` is past the instruction's 1 or 2 bytes; the same under every opcode
assignment. -/
def Obligations.StepRunsDecodedInstruction : Prop :=
  ∀ (s : State) (i : Instr), s.running = true →
    (∀ rest, decode [memRead s s.pc, memRead s (s.pc + 1)] = .ok i rest →
      step s = exec i { s with pc := s.pc + (if i.operand = none then 1 else 2) }) ∧
    ∀ f : OpcodeMap, f.wf = true → s.fetches f i →
      stepWith f s = exec i { s with pc := s.pc + (if i.operand = none then 1 else 2) }

/-- 60_exceptions.md R202 and R203: an invalid opcode byte raises InvalidOpcode. `PC` is past the byte, the fault
record holds the byte and its address (decision D5), nothing else changes. -/
def Obligations.InvalidOpcodeTakesTheException : Prop :=
  ∀ (f : OpcodeMap) (s : State), s.fetchesInvalid →
    stepWith f s = .next { s with
      pc := s.pc + 1, fault := true, faultOpcode := memRead s s.pc, faultPc := s.pc }

/-- 40_execution_cycle.md R100 (decision D6; log entries 1 and 2): a faulted or halted core takes no step, and
`step()` returns no outcome. -/
def Obligations.StoppedCoreTakesNoStep : Prop :=
  ∀ (f : OpcodeMap) (s : State),
    (s.fault = true → stepWith f s = .fault .coreFaulted ∧ stepResultWith f s = none) ∧
    (s.halted = true → s.fault = false → stepWith f s = .refused .coreHalted ∧ stepResultWith f s = none)

/-- 60_exceptions.md R200, R207 and R209: every instruction completes in every state, and a step has a next state
exactly when the core is neither halted nor faulted. That a stopped core has none is the spec's decision D6 (R100; log
entry 1). -/
def Obligations.EveryRunningCoreSteps : Prop :=
  (∀ (i : Instr) (s : State), ∃ t, exec i s = .next t) ∧
  ∀ (f : OpcodeMap) (s : State), (∃ t, stepWith f s = .next t) ↔ (s.halted = false ∧ s.fault = false)

/-- 40_execution_cycle.md R106 (decision D5): the outcome a step returns. -/
def Obligations.StepReportsItsOutcome : Prop :=
  ∀ (f : OpcodeMap) (s : State), f.wf = true → s.running = true →
    stepResultWith f s = some
      (if 16 < (memRead s s.pc).toNat then .faulted
       else if memRead s s.pc = opcodeByte f .hlt then .halted else .running)

/-- 40_execution_cycle.md R110 (decision D5): a step ends a run successfully exactly when it returns Halted, ends it in
failure exactly when it returns Faulted, never both; else the run has not ended and the core has another step. That no
step follows an end is decision D6 (log entry 1). -/
def Obligations.StepEndsARunAsItReports : Prop :=
  ∀ (f : OpcodeMap) (s t : State), stepWith f s = .next t →
    (t.succeeded = true ↔ stepResultWith f s = some .halted) ∧
    (t.failed = true ↔ stepResultWith f s = some .faulted) ∧
    ¬ (t.succeeded = true ∧ t.failed = true) ∧
    (stepResultWith f s = some .running ↔ ∃ u, stepWith f t = .next u)

/-- 40_execution_cycle.md R108 and 60_exceptions.md R214: a host that stops after `m` steps and goes on later ends where
it would have ended without stopping; the state of a halted or faulted core survives any further running (decision D6;
log entry 1). -/
def Obligations.RunResumesWhereItStopped : Prop :=
  ∀ (f : OpcodeMap) (m n : Nat) (s : State),
    runLoop f (m + n) s = runLoop f n (runLoop f m s) ∧
    (s.halted = true ∨ s.fault = true → runLoop f n s = s)

/-- 10_state.md R26: `PC` at the end of a step, by instruction. -/
def Obligations.PcAtEndOfStep : Prop :=
  ∀ (f : OpcodeMap) (s : State), f.wf = true →
    (s.fetchesInvalid → ∃ t, stepWith f s = .next t ∧ t.pc = s.pc + 1) ∧
    ∀ i : Instr, s.fetches f i → ∃ t, stepWith f s = .next t ∧ t.pc =
      match i with
      | .hlt | .outa => s.pc + 1
      | .lda _ | .ldb _ | .ldia _ | .ldib _ | .sta _ | .stb _ | .add _ | .addi _ | .sub _ | .subi _ | .outi _ => s.pc + 2
      | .jmp x => x
      | .jmpc x => if s.c then x else s.pc + 2
      | .jmpnc x => if s.c then s.pc + 2 else x
      | .jmpz x => if s.z then x else s.pc + 2

/-! ### Registers, flags and status -/

/-- 10_state.md R21: each register holds a value in 0..255, and a write of any integer stores it `mod 256` (the floor
modulus) and touches nothing else. -/
def Obligations.RegisterWritesWrapModulo256 : Prop :=
  ∀ (r : Reg) (v : Int) (s : State),
    (readReg r s).toNat ≤ 255 ∧
    ((readReg r (writeReg r v s)).toNat : Int) = v % 256 ∧
    (∀ r' : Reg, r' ≠ r → readReg r' (writeReg r v s) = readReg r' s) ∧
    (∃ pc a b o, writeReg r v s = { s with pc := pc, a := a, b := b, o := o })

/-- 10_state.md R22: which instructions write `A`, which read it; it is aliased by nothing and not hardwired; it
resets to 0. An instruction that does not read `A` answers the same whatever `A` held; each of the six that read it
has a state where the old `A` decides something beside `A`. -/
def Obligations.RegisterAReadersAndWriters : Prop :=
  (∀ (i : Instr) (s t : State), exec i s = .next t → t.a ≠ s.a →
    i.mnemonic ∈ [Mnemonic.lda, .ldia, .add, .addi, .sub, .subi]) ∧
  (∀ m ∈ [Mnemonic.lda, .ldia, .add, .addi, .sub, .subi],
    ∃ (i : Instr) (s t : State), i.mnemonic = m ∧ exec i s = .next t ∧ t.a ≠ s.a) ∧
  (∀ (i : Instr) (s t t' : State) (v : Byte), i.mnemonic ∉ [Mnemonic.sta, .add, .addi, .sub, .subi, .outa] →
    exec i s = .next t → exec i { s with a := v } = .next t' →
    { t' with a := t.a } = t ∧ (i.mnemonic ∈ [Mnemonic.lda, .ldia] → t'.a = t.a)) ∧
  (∀ m ∈ [Mnemonic.sta, .add, .addi, .sub, .subi, .outa],
    ∃ (i : Instr) (s t t' : State) (v : Byte), i.mnemonic = m ∧ exec i s = .next t ∧
      exec i { s with a := v } = .next t' ∧ { t' with a := t.a } ≠ t) ∧
  (∀ (v : Byte) (s : State), (writeReg .a (uint v) s).a = v) ∧
  (∀ (r : Reg) (v : Int) (s : State), r ≠ .a → (writeReg r v s).a = s.a) ∧
  (∀ (addr : Byte) (v : Int) (s : State), (memWrite addr v s).a = s.a ∧
    ∀ (w : Int) (other : Byte), memRead (writeReg .a w s) other = memRead s other) ∧
  State.reset.a = 0

/-- 10_state.md R23: which instructions write `B`; "The only instruction that reads `B` is STB", so every other
instruction answers the same whatever `B` held; it resets to 0. -/
def Obligations.RegisterBReadersAndWriters : Prop :=
  (∀ (i : Instr) (s t : State), exec i s = .next t → t.b ≠ s.b →
    i.mnemonic ∈ [Mnemonic.ldb, .ldib, .add, .addi, .sub, .subi]) ∧
  (∀ (i : Instr) (s t t' : State) (v : Byte), i.mnemonic ≠ .stb →
    exec i s = .next t → exec i { s with b := v } = .next t' →
    { t' with b := t.b } = t ∧ (i.mnemonic ∈ [Mnemonic.ldb, .ldib, .add, .addi, .sub, .subi] → t'.b = t.b)) ∧
  (∀ (r : Reg) (v : Int) (s : State), r ≠ .b → (writeReg r v s).b = s.b) ∧
  State.reset.b = 0

/-- 10_state.md R33: OUTA copies `A` and OUTI copies the immediate into `O`, nothing else writes it, no instruction
reads it, its value drives the output port, it resets to 0. -/
def Obligations.OutputLatchWrittenOnlyByOutputs : Prop :=
  (∀ s : State, ∃ t, exec .outa s = .next t ∧ t.o = s.a) ∧
  (∀ (x : Byte) (s : State), ∃ t, exec (.outi x) s = .next t ∧ t.o = x) ∧
  (∀ (i : Instr) (s t : State), exec i s = .next t → i.mnemonic ∉ [Mnemonic.outa, .outi] → t.o = s.o) ∧
  (∀ (f : OpcodeMap) (s t : State), s.fetchesInvalid → stepWith f s = .next t → t.o = s.o) ∧
  (∀ (i : Instr) (s t t' : State) (v : Byte), exec i s = .next t → exec i { s with o := v } = .next t' →
    { t' with o := t.o } = t ∧ (i.mnemonic ∈ [Mnemonic.outa, .outi] → t'.o = t.o)) ∧
  (∀ s : State, outputLevel s = s.o) ∧
  State.reset.o = 0

/-- 10_state.md R29: only ADD, ADDI, SUB and SUBI write `C` or `Z`, and each writes both whatever they held; the
invalid-opcode fault leaves them; the conditional jumps read them and nothing copies them: two states that differ in
the flags alone end in states that differ at most in the flags and, after a conditional jump, in `PC`. -/
def Obligations.FlagsAreSticky : Prop :=
  (∀ (i : Instr) (s t : State), exec i s = .next t → i.mnemonic ∉ [Mnemonic.add, .addi, .sub, .subi] →
    t.c = s.c ∧ t.z = s.z) ∧
  (∀ (i : Instr) (s : State) (c z : Bool), i.mnemonic ∈ [Mnemonic.add, .addi, .sub, .subi] →
    exec i { s with c := c, z := z } = exec i s) ∧
  (∀ (f : OpcodeMap) (s : State), s.fetchesInvalid → ∃ t, stepWith f s = .next t ∧ t.c = s.c ∧ t.z = s.z) ∧
  ∀ (i : Instr) (s t t' : State) (c z : Bool), exec i s = .next t → exec i { s with c := c, z := z } = .next t' →
    { t' with pc := t.pc, c := t.c, z := t.z } = t ∧
    (i.mnemonic ∉ [Mnemonic.jmpc, .jmpnc, .jmpz] → t'.pc = t.pc)

/-- 10_state.md R31: HLT is the only writer of `halted`, nothing clears it but a reset, no instruction reads it. -/
def Obligations.HaltedIsSetOnlyByHlt : Prop :=
  (∀ (f : OpcodeMap) (s : State), f.wf = true → s.running = true →
    ∃ t, stepWith f s = .next t ∧ (t.halted = true ↔ memRead s s.pc = opcodeByte f .hlt)) ∧
  (∀ (i : Instr) (s t : State), exec i s = .next t → s.halted = true → t.halted = true) ∧
  (∀ (i : Instr) (s t t' : State) (h : Bool), exec i s = .next t → exec i { s with halted := h } = .next t' →
    { t' with halted := t.halted } = t) ∧
  State.reset.halted = false ∧
  (∀ s : State, (statusPort s).halted = s.halted) ∧
  ∀ (image : List Int) (t : State), load image = .ok t → t.halted = false

/-- 10_state.md R32 (decision D5): the invalid-opcode path is the fault record's only writer, no instruction reads it,
and all three fields reset to 0. -/
def Obligations.FaultRecordIsSetOnlyByTheException : Prop :=
  (∀ (f : OpcodeMap) (s t : State), f.wf = true → stepWith f s = .next t →
    if 16 < (memRead s s.pc).toNat then t.fault = true ∧ t.faultOpcode = memRead s s.pc ∧ t.faultPc = s.pc
    else statusPort t = { statusPort s with halted := t.halted }) ∧
  (∀ (i : Instr) (s t t' : State) (e : Bool) (op p : Byte), exec i s = .next t →
    exec i { s with fault := e, faultOpcode := op, faultPc := p } = .next t' →
    t' = { t with fault := e, faultOpcode := op, faultPc := p }) ∧
  statusPort State.reset = { halted := false, fault := false, faultOpcode := 0, faultPc := 0 }

/-! ### Memory -/

/-- 20_memory.md R52: `MemWrite` sets the one cell to `v mod 256`, changes no other cell and nothing but memory. -/
def Obligations.MemWriteSetsOneCell : Prop :=
  ∀ (s : State) (addr : Byte) (v : Int),
    ((memRead (memWrite addr v s) addr).toNat : Int) = v % 256 ∧
    (∀ other : Byte, other ≠ addr → memRead (memWrite addr v s) other = memRead s other) ∧
    (∃ m, memWrite addr v s = { s with mem := m })

/-- 20_memory.md R50 and R58, 42_load_store.md R135 and R136: the only cell an instruction can change is the one a STA
or STB addresses, by the address function those meanings use. -/
def Obligations.OnlyStoresChangeMemory : Prop :=
  ∀ (i : Instr) (s t : State), exec i s = .next t → ∀ addr : Byte,
    (∀ x, i = .sta x ∨ i = .stb x → addr ≠ effectiveAddress x) → memRead t addr = memRead s addr

/-- 20_memory.md R58 (decision D12): the accesses of a step by instruction, in their order, and the step's effect on
memory is that of its one write. -/
def Obligations.StepMakesTheseAccesses : Prop :=
  ∀ (f : OpcodeMap) (s : State), f.wf = true →
    (s.fetchesInvalid → stepAccesses f s = [.read s.pc (memRead s s.pc)]) ∧
    (∀ i : Instr, s.fetches f i → stepAccesses f s =
      .read s.pc (memRead s s.pc) ::
        match i with
        | .hlt | .outa => []
        | .ldia x | .ldib x | .addi x | .subi x | .outi x | .jmp x | .jmpc x | .jmpnc x | .jmpz x =>
          [.read (s.pc + 1) x]
        | .lda x | .ldb x | .add x | .sub x => [.read (s.pc + 1) x, .read x (memRead s x)]
        | .sta x => [.read (s.pc + 1) x, .write x s.a]
        | .stb x => [.read (s.pc + 1) x, .write x s.b]) ∧
    ∀ t : State, stepWith f s = .next t → ∀ addr : Byte,
      (∀ v, .write addr v ∈ stepAccesses f s → memRead t addr = v) ∧
      ((∀ v, .write addr v ∉ stepAccesses f s) → memRead t addr = memRead s addr)

/-- 20_memory.md R58 "and no others" (decision D12; log entry 11): a step cannot depend on a cell it does not read. Over any other memory
that agrees on the cells the step reads, it makes the same accesses and ends in the same state but for memory, where
each cell ends as before the step or as the first step left it. -/
def Obligations.StepDependsOnlyOnCellsItReads : Prop :=
  ∀ (f : OpcodeMap) (s : State) (m : Memory),
    (∀ addr v, .read addr v ∈ stepAccesses f s → memRead { s with mem := m } addr = v) →
    stepAccesses f { s with mem := m } = stepAccesses f s ∧
    ∀ t : State, stepWith f s = .next t → ∃ t', stepWith f { s with mem := m } = .next t' ∧
      { t' with mem := t.mem } = t ∧
      ∀ addr : Byte, memRead t' addr =
        if (∃ v, .write addr v ∈ stepAccesses f s) then memRead t addr else memRead { s with mem := m } addr

/-- 20_memory.md R62, 70_reset_and_hazards.md R245, 42_load_store.md R135 and R136: a store to `(p + 2) mod 256`, by STA
(of `A`) or STB (of `B`), changes the opcode the next step fetches. If the stored value is an opcode the next step fetches
that instruction, if it is over 16 the next step faults on it (60_exceptions.md R202; the fault record that shows it is
decision D5, log entry 7). -/
def Obligations.StoreIsSeenByTheNextFetch : Prop :=
  ∀ (f : OpcodeMap) (s : State) (v : Byte), f.wf = true →
    (s.fetches f (.sta (s.pc + 2)) ∧ v = s.a) ∨ (s.fetches f (.stb (s.pc + 2)) ∧ v = s.b) →
    ∃ t, stepWith f s = .next t ∧ t.pc = s.pc + 2 ∧
      (∀ i : Instr, v = opcodeByte f i.mnemonic →
        (i.operand = none ∨ i.operand = some (memRead s (s.pc + 3))) → t.fetches f i) ∧
      (16 < v.toNat → ∃ u, stepWith f t = .next u ∧
        u.fault = true ∧ u.faultOpcode = v ∧ u.faultPc = s.pc + 2)

/-! ### Loads and stores -/

/-- 42_load_store.md R131. The next state is written out whole, so it is the frame too. -/
def Obligations.LdaLoadsAFromMemory : Prop :=
  ∀ (x : Byte) (s : State),
    exec (.lda x) s = .next { s with a := memRead s x } ∧
    ∀ f : OpcodeMap, f.wf = true → s.fetches f (.lda x) →
      stepWith f s = .next { s with a := memRead s x, pc := s.pc + 2 }

/-- 42_load_store.md R132. -/
def Obligations.LdbLoadsBFromMemory : Prop :=
  ∀ (x : Byte) (s : State),
    exec (.ldb x) s = .next { s with b := memRead s x } ∧
    ∀ f : OpcodeMap, f.wf = true → s.fetches f (.ldb x) →
      stepWith f s = .next { s with b := memRead s x, pc := s.pc + 2 }

/-- 42_load_store.md R133. -/
def Obligations.LdiaLoadsAWithTheImmediate : Prop :=
  ∀ (x : Byte) (s : State),
    exec (.ldia x) s = .next { s with a := x } ∧
    ∀ f : OpcodeMap, f.wf = true → s.fetches f (.ldia x) → stepWith f s = .next { s with a := x, pc := s.pc + 2 }

/-- 42_load_store.md R134. -/
def Obligations.LdibLoadsBWithTheImmediate : Prop :=
  ∀ (x : Byte) (s : State),
    exec (.ldib x) s = .next { s with b := x } ∧
    ∀ f : OpcodeMap, f.wf = true → s.fetches f (.ldib x) → stepWith f s = .next { s with b := x, pc := s.pc + 2 }

/-- 42_load_store.md R135, for every address, the instruction's own bytes among them. -/
def Obligations.StaStoresAToMemory : Prop :=
  ∀ (x : Byte) (s : State),
    (∃ m, exec (.sta x) s = .next { s with mem := m } ∧
      ∀ addr : Byte, memRead { s with mem := m } addr = if addr = effectiveAddress x then s.a else memRead s addr) ∧
    ∀ f : OpcodeMap, f.wf = true → s.fetches f (.sta x) →
      ∃ m, stepWith f s = .next { s with mem := m, pc := s.pc + 2 } ∧
        ∀ addr : Byte, memRead { s with mem := m } addr = if addr = effectiveAddress x then s.a else memRead s addr

/-- 42_load_store.md R136, for every address, the instruction's own bytes among them. -/
def Obligations.StbStoresBToMemory : Prop :=
  ∀ (x : Byte) (s : State),
    (∃ m, exec (.stb x) s = .next { s with mem := m } ∧
      ∀ addr : Byte, memRead { s with mem := m } addr = if addr = effectiveAddress x then s.b else memRead s addr) ∧
    ∀ f : OpcodeMap, f.wf = true → s.fetches f (.stb x) →
      ∃ m, stepWith f s = .next { s with mem := m, pc := s.pc + 2 } ∧
        ∀ addr : Byte, memRead { s with mem := m } addr = if addr = effectiveAddress x then s.b else memRead s addr

/-! ### Arithmetic -/

/-- 43_arithmetic.md R150: the ALU's results and carries over the integers, and the zero test. -/
def Obligations.AluResultsAndCarries : Prop :=
  ∀ a v : Byte,
    (aluAdd a v).result.toNat = (a.toNat + v.toNat) % 256 ∧
    ((aluAdd a v).carry = true ↔ a.toNat + v.toNat > 255) ∧
    ((aluSub a v).result.toNat : Int) = ((a.toNat : Int) - (v.toNat : Int)) % 256 ∧
    ((aluSub a v).carry = true ↔ (a.toNat : Int) - (v.toNat : Int) > -1) ∧
    ((aluSub a v).carry = true ↔ a.toNat ≥ v.toNat) ∧
    (zeroFlag a = true ↔ a.toNat = 0)

/-- 43_arithmetic.md R151: in each arithmetic instruction `C` comes from the old `A` and the unwrapped result, `A` is
the wrapped result, `Z` comes from the new `A`; a sum of exactly 256 gives `A = 0` with both flags set. -/
def Obligations.FlagOrderInArithmetic : Prop :=
  ∀ (x v : Byte) (s : State),
    (∀ i : Instr, (i = .add x ∧ v = memRead s x) ∨ (i = .addi x ∧ v = x) → ∃ t, exec i s = .next t ∧
      (t.c = true ↔ s.a.toNat + v.toNat > 255) ∧ t.a.toNat = (s.a.toNat + v.toNat) % 256 ∧
      (t.z = true ↔ t.a = 0) ∧ (s.a.toNat + v.toNat = 256 → t.a = 0 ∧ t.c = true ∧ t.z = true)) ∧
    (∀ i : Instr, (i = .sub x ∧ v = memRead s x) ∨ (i = .subi x ∧ v = x) → ∃ t, exec i s = .next t ∧
      (t.c = true ↔ (s.a.toNat : Int) - (v.toNat : Int) > -1) ∧
      (t.a.toNat : Int) = ((s.a.toNat : Int) - (v.toNat : Int)) % 256 ∧ (t.z = true ↔ t.a = 0))

/-- 43_arithmetic.md R152: each of the four snapshots its operand value into `B` whatever the outcome, and the old `B`
is an input to nothing. -/
def Obligations.ArithmeticSnapshotsOperandIntoB : Prop :=
  ∀ (x w : Byte) (s : State),
    (∃ t, exec (.add x) s = .next t ∧ t.b = memRead s x ∧ exec (.add x) { s with b := w } = .next t) ∧
    (∃ t, exec (.addi x) s = .next t ∧ t.b = x ∧ exec (.addi x) { s with b := w } = .next t) ∧
    (∃ t, exec (.sub x) s = .next t ∧ t.b = memRead s x ∧ exec (.sub x) { s with b := w } = .next t) ∧
    (∃ t, exec (.subi x) s = .next t ∧ t.b = x ∧ exec (.subi x) { s with b := w } = .next t)

/-- 43_arithmetic.md R153, with the whole next state. -/
def Obligations.AddAddsMemoryToA : Prop :=
  ∀ (x v : Byte) (s : State), v = memRead s x →
    exec (.add x) s = .next { s with
      b := v, c := decide (s.a.toNat + v.toNat > 255), a := s.a + v, z := decide (s.a + v = 0) } ∧
    ∀ f : OpcodeMap, f.wf = true → s.fetches f (.add x) → stepWith f s = .next { s with
      b := v, c := decide (s.a.toNat + v.toNat > 255), a := s.a + v, z := decide (s.a + v = 0), pc := s.pc + 2 }

/-- 43_arithmetic.md R154, with the whole next state. -/
def Obligations.AddiAddsTheImmediateToA : Prop :=
  ∀ (x : Byte) (s : State),
    exec (.addi x) s = .next { s with
      b := x, c := decide (s.a.toNat + x.toNat > 255), a := s.a + x, z := decide (s.a + x = 0) } ∧
    ∀ f : OpcodeMap, f.wf = true → s.fetches f (.addi x) → stepWith f s = .next { s with
      b := x, c := decide (s.a.toNat + x.toNat > 255), a := s.a + x, z := decide (s.a + x = 0), pc := s.pc + 2 }

/-- 43_arithmetic.md R155, with the whole next state. -/
def Obligations.SubSubtractsMemoryFromA : Prop :=
  ∀ (x v : Byte) (s : State), v = memRead s x →
    exec (.sub x) s = .next { s with
      b := v, c := decide (s.a.toNat ≥ v.toNat), a := s.a - v, z := decide (s.a - v = 0) } ∧
    ∀ f : OpcodeMap, f.wf = true → s.fetches f (.sub x) → stepWith f s = .next { s with
      b := v, c := decide (s.a.toNat ≥ v.toNat), a := s.a - v, z := decide (s.a - v = 0), pc := s.pc + 2 }

/-- 43_arithmetic.md R156, with the whole next state. -/
def Obligations.SubiSubtractsTheImmediateFromA : Prop :=
  ∀ (x : Byte) (s : State),
    exec (.subi x) s = .next { s with
      b := x, c := decide (s.a.toNat ≥ x.toNat), a := s.a - x, z := decide (s.a - x = 0) } ∧
    ∀ f : OpcodeMap, f.wf = true → s.fetches f (.subi x) → stepWith f s = .next { s with
      b := x, c := decide (s.a.toNat ≥ x.toNat), a := s.a - x, z := decide (s.a - x = 0), pc := s.pc + 2 }

/-- 43_arithmetic.md R157: a subtraction undoes an addition of the same immediate, and borrows exactly when the
addition carried; SUBI 1 "leaves `C = 0` exactly when `A` was 0". -/
def Obligations.SubtractionUndoesAddition : Prop :=
  (∀ (v : Byte) (s : State), ∃ t u, exec (.addi v) s = .next t ∧ exec (.subi v) t = .next u ∧
    u = { s with b := v, c := !t.c, z := decide (s.a = 0) }) ∧
  ∀ s : State, ∃ t, exec (.subi 1) s = .next t ∧ (t.c = false ↔ s.a = 0)

/-! ### Output -/

/-- 44_output.md R170, with the event of decision D4 (log entry 4) and the whole next state. -/
def Obligations.OutaOutputsA : Prop :=
  ∀ s : State,
    exec .outa s = .next { s with o := s.a, outEvents := s.outEvents ++ [s.a] } ∧
    ∀ f : OpcodeMap, f.wf = true → s.fetches f .outa →
      stepWith f s = .next { s with o := s.a, outEvents := s.outEvents ++ [s.a], pc := s.pc + 1 }

/-- 44_output.md R171, with the event of decision D4 (log entry 4) and the whole next state. -/
def Obligations.OutiOutputsTheImmediate : Prop :=
  ∀ (x : Byte) (s : State),
    exec (.outi x) s = .next { s with o := x, outEvents := s.outEvents ++ [x] } ∧
    ∀ f : OpcodeMap, f.wf = true → s.fetches f (.outi x) →
      stepWith f s = .next { s with o := x, outEvents := s.outEvents ++ [x], pc := s.pc + 2 }

/-- 44_output.md R172 (decision D4; log entry 4): a step that executes OUTA or OUTI emits one event carrying the value
written to `O`, no other step emits one, and the record of events influences nothing. -/
def Obligations.OnlyOutputStepsEmitEvents : Prop :=
  ∀ (f : OpcodeMap) (s t : State), f.wf = true → stepWith f s = .next t →
    ∃ new : List Byte, t.outEvents = s.outEvents ++ new ∧
      (new = if memRead s s.pc = opcodeByte f .outa ∨ memRead s s.pc = opcodeByte f .outi then [t.o] else []) ∧
      ∀ earlier : List Byte,
        stepWith f { s with outEvents := earlier } = .next { t with outEvents := earlier ++ new }

/-! ### Control transfer and halt -/

/-- 41_halt.md R120: HLT sets `halted` and nothing else and `PC` stays past its one byte. That no step follows is the
spec's decision D6 (40_execution_cycle.md R100; log entry 1). -/
def Obligations.HltHaltsTheCore : Prop :=
  ∀ s : State,
    exec .hlt s = .next { s with halted := true } ∧
    ∀ f : OpcodeMap, f.wf = true → s.fetches f .hlt →
      ∃ t, stepWith f s = .next t ∧ t = { s with halted := true, pc := s.pc + 1 } ∧ ¬ ∃ u, stepWith f t = .next u

/-- 45_control.md R181, with the whole next state. -/
def Obligations.JmpSetsPc : Prop :=
  ∀ (x : Byte) (s : State),
    exec (.jmp x) s = .next { s with pc := x } ∧
    ∀ f : OpcodeMap, f.wf = true → s.fetches f (.jmp x) → stepWith f s = .next { s with pc := x }

/-- 45_control.md R182, with the whole next state: not taken, `PC` is `(p + 2) mod 256`. -/
def Obligations.JmpcJumpsIfCarry : Prop :=
  ∀ (x : Byte) (s : State),
    exec (.jmpc x) s = .next { s with pc := if s.c = true then x else s.pc } ∧
    ∀ f : OpcodeMap, f.wf = true → s.fetches f (.jmpc x) →
      stepWith f s = .next { s with pc := if s.c = true then x else s.pc + 2 }

/-- 45_control.md R183, with the whole next state: not taken, `PC` is `(p + 2) mod 256`. -/
def Obligations.JmpncJumpsIfNotCarry : Prop :=
  ∀ (x : Byte) (s : State),
    exec (.jmpnc x) s = .next { s with pc := if s.c = true then s.pc else x } ∧
    ∀ f : OpcodeMap, f.wf = true → s.fetches f (.jmpnc x) →
      stepWith f s = .next { s with pc := if s.c = true then s.pc + 2 else x }

/-- 45_control.md R184, with the whole next state: not taken, `PC` is `(p + 2) mod 256`. -/
def Obligations.JmpzJumpsIfZero : Prop :=
  ∀ (x : Byte) (s : State),
    exec (.jmpz x) s = .next { s with pc := if s.z = true then x else s.pc } ∧
    ∀ f : OpcodeMap, f.wf = true → s.fetches f (.jmpz x) →
      stepWith f s = .next { s with pc := if s.z = true then x else s.pc + 2 }

/-- 45_control.md R180: a jump goes to its operand byte or falls through past it, writes nothing but `PC`, and a jump to
its own address repeats itself for ever. -/
def Obligations.JumpsWriteOnlyPc : Prop :=
  (∀ (f : OpcodeMap) (i : Instr) (s : State), f.wf = true → i.mnemonic ∈ [Mnemonic.jmp, .jmpc, .jmpnc, .jmpz] →
    s.fetches f i → ∃ t, stepWith f s = .next t ∧ { t with pc := s.pc } = s ∧
      (i.operand = some t.pc ∨ i.mnemonic ≠ .jmp ∧ t.pc = s.pc + 2)) ∧
  (∀ (f : OpcodeMap) (s : State), f.wf = true → s.fetches f (.jmp s.pc) → stepWith f s = .next s) ∧
  ∀ (s : State) (k : Nat), s.fetches opcodeOf (.jmp s.pc) → Sys2Proof.core.run k s = .next s

/-! ### Reset and load -/

/-- 10_state.md R38 and 70_reset_and_hazards.md R242, with the fault fields of decision D5: reset with the empty image
leaves every register, flag and status field 0 and every cell 0, and the first opcode is fetched at address 0. -/
def Obligations.ResetValues : Prop :=
  load [] = .ok State.reset ∧
  (∀ addr : Byte, memRead State.reset addr = 0) ∧
  State.reset.pc = 0 ∧ State.reset.a = 0 ∧ State.reset.b = 0 ∧ State.reset.o = 0 ∧
  State.reset.c = false ∧ State.reset.z = false ∧ State.reset.halted = false ∧
  State.reset.fault = false ∧ State.reset.faultOpcode = 0 ∧ State.reset.faultPc = 0 ∧
  State.reset.outEvents = []

/-- 70_reset_and_hazards.md R240 and R241 (decisions D5, D7, D8): a load of a well-formed image succeeds whatever core
there was; the image stands from address 0 in order, zeros follow it, everything else is reset. -/
def Obligations.LoadInstallsTheImage : Prop :=
  ∀ (image : List Int) (existing : Option State), image.length ≤ 256 → (∀ v ∈ image, 0 ≤ v ∧ v ≤ 255) →
    ∃ t : State, load image = .ok t ∧ hostLoad image existing = (.ok t, some t) ∧
      t = { State.reset with mem := t.mem } ∧
      (∀ (k : Nat) (h : k < image.length), ((memRead t (BitVec.ofNat 8 k)).toNat : Int) = image[k]) ∧
      ∀ k : Nat, image.length ≤ k → k < 256 → memRead t (BitVec.ofNat 8 k) = 0

/-- 60_exceptions.md R205 (decisions D7, D8): an image that is too long or holds a value outside 0..255 is refused with
its error, no machine is built, and an existing core keeps its state. Where both errors apply the spec gives no order:
the statement then says only that one of the two is reported, whatever the free value of log entry 6 is. -/
def Obligations.LoadRefusesBadImages : Prop :=
  ∀ (image : List Int) (existing : Option State),
    (256 < image.length ∨ ∃ v ∈ image, v < 0 ∨ 255 < v) →
    ∃ e : LoadError, load image = .failed e ∧ hostLoad image existing = (.failed e, existing) ∧
      ((∀ v ∈ image, 0 ≤ v ∧ v ≤ 255) → e = .tooLarge) ∧ (image.length ≤ 256 → e = .badValue)

/-! ### The invariant -/

/-- The invariant `State.Inv` (memory canonical; `halted` and `fault` never both, R110; a halted core stands past a HLT
byte; a faulted core stands past the byte its record names, R203; no record without a fault, R32) holds at reset. The
fault record is decision D5 (log entry 7); the memory's canonical form is the model's own (log entry 14). -/
def Obligations.InvariantHoldsAtReset : Prop := ∀ f : OpcodeMap, State.reset.Inv f

/-- Every successful load leaves the invariant, and a core that runs (70_reset_and_hazards.md R241). The fault record is
decision D5 (log entry 7); the memory's canonical form is the model's own (log entry 14). -/
def Obligations.InvariantHoldsAfterLoad : Prop :=
  ∀ (f : OpcodeMap) (image : List Int) (t : State), load image = .ok t → t.Inv f ∧ t.running = true

/-- HEADLINE. Every step keeps the invariant, from every state that meets it and under every bijective opcode assignment;
with decision D1's assignment the step is the machine's own. The fault record is decision D5 (log entry 7); the memory's
canonical form is the model's own (log entry 14). -/
def Obligations.EveryStepKeepsTheInvariant : Prop :=
  (∀ (f : OpcodeMap), f.wf = true → ∀ s t : State, s.Inv f → stepWith f s = .next t → t.Inv f) ∧
  ∀ s t : State, s.Inv opcodeOf → step s = .next t → t.Inv opcodeOf
end

