-- ==== Sys2Proof/Laws/Decode.lean ====
section
/-! SUPPORT. The opcode map and its inverse: one spec lemma for `mnemonicOf`. -/

namespace Sys2Proof

theorem Mnemonic.mem_all (m : Mnemonic) : m ∈ Mnemonic.all := by cases m <;> decide

theorem opcodeByte_toNat (f : OpcodeMap) (m : Mnemonic) : (opcodeByte f m).toNat = (f m).val := by
  have := (f m).isLt
  simp only [opcodeByte, BitVec.toNat_ofNat]
  omega

theorem opcodeByte_le (f : OpcodeMap) (m : Mnemonic) : (opcodeByte f m).toNat ≤ 16 := by
  have := (f m).isLt
  rw [opcodeByte_toNat]; omega

theorem OpcodeMap.injective_of_wf {f : OpcodeMap} (hf : f.wf = true) : Function.Injective f := by
  intro m n h
  have hn : (Mnemonic.all.map f).Nodup := by simpa [OpcodeMap.wf] using hf
  exact List.inj_on_of_nodup_map hn m.mem_all n.mem_all h

theorem opcodeByte_inj {f : OpcodeMap} (hf : f.wf = true) {m n : Mnemonic} (h : opcodeByte f m = opcodeByte f n) :
    m = n := by
  apply OpcodeMap.injective_of_wf hf
  apply Fin.ext
  rw [← opcodeByte_toNat, ← opcodeByte_toNat, h]

theorem opcodeByte_of_mnemonicOf {f : OpcodeMap} {op : Byte} {m : Mnemonic} (h : mnemonicOf f op = some m) :
    opcodeByte f m = op := by
  simpa using List.find?_some h

/-- `OPCODE_OF⁻¹` of a mnemonic's own byte is the mnemonic. -/
theorem mnemonicOf_opcodeByte {f : OpcodeMap} (hf : f.wf = true) (m : Mnemonic) :
    mnemonicOf f (opcodeByte f m) = some m := by
  cases h : mnemonicOf f (opcodeByte f m) with
  | none => simpa using List.find?_eq_none.mp h m m.mem_all
  | some n => rw [opcodeByte_inj hf (opcodeByte_of_mnemonicOf h)]

theorem opcodeOf_wf : OpcodeMap.wf opcodeOf = true := by decide

@[simp] theorem buildInstr_mnemonic (m : Mnemonic) (x : Byte) : (buildInstr m x).mnemonic = m := by
  cases m <;> rfl

@[simp] theorem buildInstr_operand (m : Mnemonic) (x : Byte) :
    (buildInstr m x).operand = if hasOperand m then some x else none := by
  cases m <;> rfl

theorem buildInstr_of_operand {i : Instr} {x : Byte} (h : i.operand = some x) :
    buildInstr i.mnemonic x = i ∧ hasOperand i.mnemonic = true := by
  cases i <;> simp_all [Instr.operand, Instr.mnemonic, buildInstr, hasOperand, formatOf]

theorem buildInstr_of_no_operand {i : Instr} (h : i.operand = none) (x : Byte) :
    buildInstr i.mnemonic x = i ∧ hasOperand i.mnemonic = false := by
  cases i <;> simp_all [Instr.operand, Instr.mnemonic, buildInstr, hasOperand, formatOf]

end Sys2Proof
end

