-- ==== Sys2Proof/Laws/Memory.lean ====
section
/-! SUPPORT. The laws of the memory operations: read after write, and the canonical form. -/

namespace Sys2Proof.Machine

@[simp] theorem Memory.read_nil (addr : Nat) : Memory.read [] addr = 0 := rfl

theorem Memory.read_cons (k : Nat) (x : Byte) (m : Memory) (addr : Nat) :
    Memory.read ((k, x) :: m) addr = if k = addr then x else Memory.read m addr := rfl

theorem Memory.read_erase (m : Memory) (addr other : Nat) :
    Memory.read (Memory.erase m addr) other = if other = addr then 0 else Memory.read m other := by
  induction m with
  | nil => simp [Memory.erase]
  | cons cell m ih =>
    obtain ⟨k, x⟩ := cell
    simp only [Memory.erase, List.filter_cons] at ih ⊢
    by_cases hk : k = addr <;> by_cases ho : other = addr <;> by_cases hko : k = other <;>
      simp_all [Memory.read_cons]

theorem Memory.read_insert_erased (m : Memory) (addr other : Nat) (v : Byte) (hm : ∀ cell ∈ m, cell.1 ≠ addr) :
    Memory.read (Memory.insert m addr v) other = if other = addr then v else Memory.read m other := by
  induction m with
  | nil =>
    by_cases ho : other = addr
    · simp [Memory.insert, Memory.read_cons, ho]
    · simp [Memory.insert, Memory.read_cons, ho, Ne.symm ho]
  | cons cell m ih =>
    obtain ⟨k, x⟩ := cell
    have hk : k ≠ addr := hm (k, x) (by simp)
    have ih := ih (fun c hc => hm c (by simp [hc]))
    by_cases ho : other = addr
    · subst ho
      by_cases hlt : other < k
      · simp [Memory.insert, hlt, Memory.read_cons]
      · simpa [Memory.insert, hlt, Memory.read_cons, hk] using ih
    · by_cases hlt : addr < k
      · simp [Memory.insert, hlt, Memory.read_cons, ho, Ne.symm ho]
      · simp only [if_neg ho] at ih
        simp [Memory.insert, hlt, Memory.read_cons, ho, ih]

/-- Everything a write does to what reads answer: the written cell holds the value, every other cell is as before. -/
theorem Memory.read_write (m : Memory) (addr other : Nat) (v : Byte) :
    Memory.read (Memory.write m addr v) other = if other = addr then v else Memory.read m other := by
  unfold Memory.write
  split
  · next h => rw [Memory.read_erase, h]; rfl
  · rw [Memory.read_insert_erased _ _ _ _ (by simp [Memory.erase]),
      Memory.read_erase]
    split <;> rfl

/-- Everything `MemWrite` does to what `MemRead` answers (R52). -/
theorem memRead_memWrite (s : State) (addr other : Byte) (v : Int) :
    memRead (memWrite addr v s) other = if other = addr then wrap8 v else memRead s other := by
  simp only [memRead, memWrite, Memory.read_write, BitVec.toNat_inj]

/-! ### The canonical form -/

theorem Memory.wfFrom_mono {m : Memory} {lo hi : Nat} (h : Memory.wfFrom hi m = true) (hlo : lo ≤ hi) :
    Memory.wfFrom lo m = true := by
  cases m with
  | nil => rfl
  | cons cell m =>
    obtain ⟨k, x⟩ := cell
    simp only [Memory.wfFrom, Bool.and_eq_true, decide_eq_true_eq] at h ⊢
    exact ⟨⟨⟨by omega, h.1.1.2⟩, h.1.2⟩, h.2⟩

theorem Memory.wfFrom_erase {m : Memory} {lo : Nat} (h : Memory.wfFrom lo m = true) (addr : Nat) :
    Memory.wfFrom lo (Memory.erase m addr) = true := by
  induction m generalizing lo with
  | nil => rfl
  | cons cell m ih =>
    obtain ⟨k, x⟩ := cell
    simp only [Memory.wfFrom, Bool.and_eq_true, decide_eq_true_eq] at h
    have := ih h.2
    simp only [Memory.erase, List.filter_cons] at this ⊢
    split
    · simp only [Memory.wfFrom, Bool.and_eq_true, decide_eq_true_eq]
      exact ⟨h.1, this⟩
    · exact Memory.wfFrom_mono this (by omega)

theorem Memory.wfFrom_insert {m : Memory} {lo addr : Nat} {v : Byte} (h : Memory.wfFrom lo m = true)
    (hm : ∀ cell ∈ m, cell.1 ≠ addr) (hlo : lo ≤ addr) (haddr : addr < Config.memSize) (hv : v ≠ Memory.unlisted) :
    Memory.wfFrom lo (Memory.insert m addr v) = true := by
  induction m generalizing lo with
  | nil => simp [Memory.insert, Memory.wfFrom, hlo, haddr, hv]
  | cons cell m ih =>
    obtain ⟨k, x⟩ := cell
    have hk : k ≠ addr := hm (k, x) (by simp)
    simp only [Memory.wfFrom, Bool.and_eq_true, decide_eq_true_eq] at h
    simp only [Memory.insert]
    split
    · next hlt =>
      simp only [Memory.wfFrom, Bool.and_eq_true, decide_eq_true_eq]
      exact ⟨⟨⟨hlo, haddr⟩, hv⟩, ⟨⟨by omega, h.1.1.2⟩, h.1.2⟩, h.2⟩
    · next hlt =>
      simp only [Memory.wfFrom, Bool.and_eq_true, decide_eq_true_eq]
      exact ⟨h.1, ih h.2 (fun c hc => hm c (by simp [hc])) (by omega)⟩

/-- A write within the 256 cells keeps the canonical form. -/
theorem Memory.wf_write {m : Memory} (h : Memory.wf m = true) {addr : Nat} (haddr : addr < Config.memSize) (v : Byte) :
    Memory.wf (Memory.write m addr v) = true := by
  unfold Memory.write
  split
  · exact Memory.wfFrom_erase h addr
  · next hv =>
    exact Memory.wfFrom_insert (Memory.wfFrom_erase h addr) (by simp [Memory.erase]) (Nat.zero_le _) haddr hv

/-- `MemWrite` keeps the canonical form: every 8-bit address is a cell (20_memory.md R51). -/
theorem memWrite_wf {s : State} (h : Memory.wf s.mem = true) (addr : Byte) (v : Int) :
    Memory.wf (memWrite addr v s).mem = true :=
  Memory.wf_write h addr.isLt _

theorem reset_mem_wf : Memory.wf State.reset.mem = true := rfl

theorem Memory.read_of_wfFrom_lt {m : Memory} {lo addr : Nat} (h : Memory.wfFrom lo m = true) (haddr : addr < lo) :
    Memory.read m addr = 0 := by
  induction m generalizing lo with
  | nil => rfl
  | cons cell m ih =>
    obtain ⟨k, x⟩ := cell
    simp only [Memory.wfFrom, Bool.and_eq_true, decide_eq_true_eq] at h
    rw [Memory.read_cons, if_neg (by omega)]
    exact ih h.2 (by omega)

theorem Memory.wfFrom_ext {m n : Memory} {lo : Nat} (hm : Memory.wfFrom lo m = true) (hn : Memory.wfFrom lo n = true)
    (h : ∀ addr, Memory.read m addr = Memory.read n addr) : m = n := by
  induction m generalizing n lo with
  | nil =>
    cases n with
    | nil => rfl
    | cons cell n =>
      obtain ⟨k, x⟩ := cell
      simp only [Memory.wfFrom, Bool.and_eq_true, decide_eq_true_eq] at hn
      have := h k
      rw [Memory.read_cons, if_pos rfl] at this
      exact absurd this.symm hn.1.2
  | cons cell m ih =>
    obtain ⟨k, x⟩ := cell
    cases n with
    | nil =>
      simp only [Memory.wfFrom, Bool.and_eq_true, decide_eq_true_eq] at hm
      have := h k
      rw [Memory.read_cons, if_pos rfl] at this
      exact absurd this hm.1.2
    | cons cell' n =>
      obtain ⟨k', x'⟩ := cell'
      simp only [Memory.wfFrom, Bool.and_eq_true, decide_eq_true_eq] at hm hn
      have hk : k = k' := by
        rcases Nat.lt_trichotomy k k' with hlt | heq | hgt
        · have := h k
          rw [Memory.read_cons, if_pos rfl, Memory.read_cons, if_neg (by omega),
            Memory.read_of_wfFrom_lt hn.2 (by omega)] at this
          exact absurd this hm.1.2
        · exact heq
        · have := h k'
          rw [Memory.read_cons, if_neg (by omega), Memory.read_of_wfFrom_lt hm.2 (by omega),
            Memory.read_cons, if_pos rfl] at this
          exact absurd this.symm hn.1.2
      subst hk
      have hx : x = x' := by simpa [Memory.read_cons] using h k
      subst hx
      congr 1
      refine ih hm.2 hn.2 fun addr => ?_
      rcases Nat.lt_or_ge addr (k + 1) with hlt | hge
      · rw [Memory.read_of_wfFrom_lt hm.2 hlt, Memory.read_of_wfFrom_lt hn.2 hlt]
      · have := h addr
        rwa [Memory.read_cons, if_neg (by omega), Memory.read_cons, if_neg (by omega)] at this

/-- Equal memories are equal data: two canonical memories that read alike are the same list. -/
theorem Memory.ext_of_wf {m n : Memory} (hm : Memory.wf m = true) (hn : Memory.wf n = true)
    (h : ∀ addr, Memory.read m addr = Memory.read n addr) : m = n :=
  Memory.wfFrom_ext hm hn h

end Sys2Proof.Machine
end

