-- ==== Sys2Proof/Laws/State.lean ====
section
/-! SUPPORT. One lemma per field and update of State, each true by unfolding, so that no proof unfolds a record update. -/

namespace Sys2Proof.Machine

@[simp] theorem writeReg_pc_mem (v : Int) (s : State) : (writeReg .pc v s).mem = s.mem := rfl
@[simp] theorem writeReg_pc_pc (v : Int) (s : State) : (writeReg .pc v s).pc = wrap8 v := rfl
@[simp] theorem writeReg_pc_a (v : Int) (s : State) : (writeReg .pc v s).a = s.a := rfl
@[simp] theorem writeReg_pc_b (v : Int) (s : State) : (writeReg .pc v s).b = s.b := rfl
@[simp] theorem writeReg_pc_o (v : Int) (s : State) : (writeReg .pc v s).o = s.o := rfl
@[simp] theorem writeReg_pc_c (v : Int) (s : State) : (writeReg .pc v s).c = s.c := rfl
@[simp] theorem writeReg_pc_z (v : Int) (s : State) : (writeReg .pc v s).z = s.z := rfl
@[simp] theorem writeReg_pc_halted (v : Int) (s : State) : (writeReg .pc v s).halted = s.halted := rfl
@[simp] theorem writeReg_pc_fault (v : Int) (s : State) : (writeReg .pc v s).fault = s.fault := rfl
@[simp] theorem writeReg_pc_faultOpcode (v : Int) (s : State) : (writeReg .pc v s).faultOpcode = s.faultOpcode := rfl
@[simp] theorem writeReg_pc_faultPc (v : Int) (s : State) : (writeReg .pc v s).faultPc = s.faultPc := rfl
@[simp] theorem writeReg_pc_outEvents (v : Int) (s : State) : (writeReg .pc v s).outEvents = s.outEvents := rfl

@[simp] theorem writeReg_a_mem (v : Int) (s : State) : (writeReg .a v s).mem = s.mem := rfl
@[simp] theorem writeReg_a_pc (v : Int) (s : State) : (writeReg .a v s).pc = s.pc := rfl
@[simp] theorem writeReg_a_a (v : Int) (s : State) : (writeReg .a v s).a = wrap8 v := rfl
@[simp] theorem writeReg_a_b (v : Int) (s : State) : (writeReg .a v s).b = s.b := rfl
@[simp] theorem writeReg_a_o (v : Int) (s : State) : (writeReg .a v s).o = s.o := rfl
@[simp] theorem writeReg_a_c (v : Int) (s : State) : (writeReg .a v s).c = s.c := rfl
@[simp] theorem writeReg_a_z (v : Int) (s : State) : (writeReg .a v s).z = s.z := rfl
@[simp] theorem writeReg_a_halted (v : Int) (s : State) : (writeReg .a v s).halted = s.halted := rfl
@[simp] theorem writeReg_a_fault (v : Int) (s : State) : (writeReg .a v s).fault = s.fault := rfl
@[simp] theorem writeReg_a_faultOpcode (v : Int) (s : State) : (writeReg .a v s).faultOpcode = s.faultOpcode := rfl
@[simp] theorem writeReg_a_faultPc (v : Int) (s : State) : (writeReg .a v s).faultPc = s.faultPc := rfl
@[simp] theorem writeReg_a_outEvents (v : Int) (s : State) : (writeReg .a v s).outEvents = s.outEvents := rfl

@[simp] theorem writeReg_b_mem (v : Int) (s : State) : (writeReg .b v s).mem = s.mem := rfl
@[simp] theorem writeReg_b_pc (v : Int) (s : State) : (writeReg .b v s).pc = s.pc := rfl
@[simp] theorem writeReg_b_a (v : Int) (s : State) : (writeReg .b v s).a = s.a := rfl
@[simp] theorem writeReg_b_b (v : Int) (s : State) : (writeReg .b v s).b = wrap8 v := rfl
@[simp] theorem writeReg_b_o (v : Int) (s : State) : (writeReg .b v s).o = s.o := rfl
@[simp] theorem writeReg_b_c (v : Int) (s : State) : (writeReg .b v s).c = s.c := rfl
@[simp] theorem writeReg_b_z (v : Int) (s : State) : (writeReg .b v s).z = s.z := rfl
@[simp] theorem writeReg_b_halted (v : Int) (s : State) : (writeReg .b v s).halted = s.halted := rfl
@[simp] theorem writeReg_b_fault (v : Int) (s : State) : (writeReg .b v s).fault = s.fault := rfl
@[simp] theorem writeReg_b_faultOpcode (v : Int) (s : State) : (writeReg .b v s).faultOpcode = s.faultOpcode := rfl
@[simp] theorem writeReg_b_faultPc (v : Int) (s : State) : (writeReg .b v s).faultPc = s.faultPc := rfl
@[simp] theorem writeReg_b_outEvents (v : Int) (s : State) : (writeReg .b v s).outEvents = s.outEvents := rfl

@[simp] theorem writeReg_o_mem (v : Int) (s : State) : (writeReg .o v s).mem = s.mem := rfl
@[simp] theorem writeReg_o_pc (v : Int) (s : State) : (writeReg .o v s).pc = s.pc := rfl
@[simp] theorem writeReg_o_a (v : Int) (s : State) : (writeReg .o v s).a = s.a := rfl
@[simp] theorem writeReg_o_b (v : Int) (s : State) : (writeReg .o v s).b = s.b := rfl
@[simp] theorem writeReg_o_o (v : Int) (s : State) : (writeReg .o v s).o = wrap8 v := rfl
@[simp] theorem writeReg_o_c (v : Int) (s : State) : (writeReg .o v s).c = s.c := rfl
@[simp] theorem writeReg_o_z (v : Int) (s : State) : (writeReg .o v s).z = s.z := rfl
@[simp] theorem writeReg_o_halted (v : Int) (s : State) : (writeReg .o v s).halted = s.halted := rfl
@[simp] theorem writeReg_o_fault (v : Int) (s : State) : (writeReg .o v s).fault = s.fault := rfl
@[simp] theorem writeReg_o_faultOpcode (v : Int) (s : State) : (writeReg .o v s).faultOpcode = s.faultOpcode := rfl
@[simp] theorem writeReg_o_faultPc (v : Int) (s : State) : (writeReg .o v s).faultPc = s.faultPc := rfl
@[simp] theorem writeReg_o_outEvents (v : Int) (s : State) : (writeReg .o v s).outEvents = s.outEvents := rfl

@[simp] theorem memWrite_mem (addr : Byte) (v : Int) (s : State) : (memWrite addr v s).mem = Memory.write s.mem addr.toNat (wrap8 v) := rfl
@[simp] theorem memWrite_pc (addr : Byte) (v : Int) (s : State) : (memWrite addr v s).pc = s.pc := rfl
@[simp] theorem memWrite_a (addr : Byte) (v : Int) (s : State) : (memWrite addr v s).a = s.a := rfl
@[simp] theorem memWrite_b (addr : Byte) (v : Int) (s : State) : (memWrite addr v s).b = s.b := rfl
@[simp] theorem memWrite_o (addr : Byte) (v : Int) (s : State) : (memWrite addr v s).o = s.o := rfl
@[simp] theorem memWrite_c (addr : Byte) (v : Int) (s : State) : (memWrite addr v s).c = s.c := rfl
@[simp] theorem memWrite_z (addr : Byte) (v : Int) (s : State) : (memWrite addr v s).z = s.z := rfl
@[simp] theorem memWrite_halted (addr : Byte) (v : Int) (s : State) : (memWrite addr v s).halted = s.halted := rfl
@[simp] theorem memWrite_fault (addr : Byte) (v : Int) (s : State) : (memWrite addr v s).fault = s.fault := rfl
@[simp] theorem memWrite_faultOpcode (addr : Byte) (v : Int) (s : State) : (memWrite addr v s).faultOpcode = s.faultOpcode := rfl
@[simp] theorem memWrite_faultPc (addr : Byte) (v : Int) (s : State) : (memWrite addr v s).faultPc = s.faultPc := rfl
@[simp] theorem memWrite_outEvents (addr : Byte) (v : Int) (s : State) : (memWrite addr v s).outEvents = s.outEvents := rfl

@[simp] theorem setC_mem (v : Bool) (s : State) : (setC v s).mem = s.mem := rfl
@[simp] theorem setC_pc (v : Bool) (s : State) : (setC v s).pc = s.pc := rfl
@[simp] theorem setC_a (v : Bool) (s : State) : (setC v s).a = s.a := rfl
@[simp] theorem setC_b (v : Bool) (s : State) : (setC v s).b = s.b := rfl
@[simp] theorem setC_o (v : Bool) (s : State) : (setC v s).o = s.o := rfl
@[simp] theorem setC_c (v : Bool) (s : State) : (setC v s).c = v := rfl
@[simp] theorem setC_z (v : Bool) (s : State) : (setC v s).z = s.z := rfl
@[simp] theorem setC_halted (v : Bool) (s : State) : (setC v s).halted = s.halted := rfl
@[simp] theorem setC_fault (v : Bool) (s : State) : (setC v s).fault = s.fault := rfl
@[simp] theorem setC_faultOpcode (v : Bool) (s : State) : (setC v s).faultOpcode = s.faultOpcode := rfl
@[simp] theorem setC_faultPc (v : Bool) (s : State) : (setC v s).faultPc = s.faultPc := rfl
@[simp] theorem setC_outEvents (v : Bool) (s : State) : (setC v s).outEvents = s.outEvents := rfl

@[simp] theorem setZ_mem (v : Bool) (s : State) : (setZ v s).mem = s.mem := rfl
@[simp] theorem setZ_pc (v : Bool) (s : State) : (setZ v s).pc = s.pc := rfl
@[simp] theorem setZ_a (v : Bool) (s : State) : (setZ v s).a = s.a := rfl
@[simp] theorem setZ_b (v : Bool) (s : State) : (setZ v s).b = s.b := rfl
@[simp] theorem setZ_o (v : Bool) (s : State) : (setZ v s).o = s.o := rfl
@[simp] theorem setZ_c (v : Bool) (s : State) : (setZ v s).c = s.c := rfl
@[simp] theorem setZ_z (v : Bool) (s : State) : (setZ v s).z = v := rfl
@[simp] theorem setZ_halted (v : Bool) (s : State) : (setZ v s).halted = s.halted := rfl
@[simp] theorem setZ_fault (v : Bool) (s : State) : (setZ v s).fault = s.fault := rfl
@[simp] theorem setZ_faultOpcode (v : Bool) (s : State) : (setZ v s).faultOpcode = s.faultOpcode := rfl
@[simp] theorem setZ_faultPc (v : Bool) (s : State) : (setZ v s).faultPc = s.faultPc := rfl
@[simp] theorem setZ_outEvents (v : Bool) (s : State) : (setZ v s).outEvents = s.outEvents := rfl

@[simp] theorem setHalted_mem (s : State) : (setHalted s).mem = s.mem := rfl
@[simp] theorem setHalted_pc (s : State) : (setHalted s).pc = s.pc := rfl
@[simp] theorem setHalted_a (s : State) : (setHalted s).a = s.a := rfl
@[simp] theorem setHalted_b (s : State) : (setHalted s).b = s.b := rfl
@[simp] theorem setHalted_o (s : State) : (setHalted s).o = s.o := rfl
@[simp] theorem setHalted_c (s : State) : (setHalted s).c = s.c := rfl
@[simp] theorem setHalted_z (s : State) : (setHalted s).z = s.z := rfl
@[simp] theorem setHalted_halted (s : State) : (setHalted s).halted = true := rfl
@[simp] theorem setHalted_fault (s : State) : (setHalted s).fault = s.fault := rfl
@[simp] theorem setHalted_faultOpcode (s : State) : (setHalted s).faultOpcode = s.faultOpcode := rfl
@[simp] theorem setHalted_faultPc (s : State) : (setHalted s).faultPc = s.faultPc := rfl
@[simp] theorem setHalted_outEvents (s : State) : (setHalted s).outEvents = s.outEvents := rfl

@[simp] theorem emitOut_mem (v : Byte) (s : State) : (emitOut v s).mem = s.mem := rfl
@[simp] theorem emitOut_pc (v : Byte) (s : State) : (emitOut v s).pc = s.pc := rfl
@[simp] theorem emitOut_a (v : Byte) (s : State) : (emitOut v s).a = s.a := rfl
@[simp] theorem emitOut_b (v : Byte) (s : State) : (emitOut v s).b = s.b := rfl
@[simp] theorem emitOut_o (v : Byte) (s : State) : (emitOut v s).o = s.o := rfl
@[simp] theorem emitOut_c (v : Byte) (s : State) : (emitOut v s).c = s.c := rfl
@[simp] theorem emitOut_z (v : Byte) (s : State) : (emitOut v s).z = s.z := rfl
@[simp] theorem emitOut_halted (v : Byte) (s : State) : (emitOut v s).halted = s.halted := rfl
@[simp] theorem emitOut_fault (v : Byte) (s : State) : (emitOut v s).fault = s.fault := rfl
@[simp] theorem emitOut_faultOpcode (v : Byte) (s : State) : (emitOut v s).faultOpcode = s.faultOpcode := rfl
@[simp] theorem emitOut_faultPc (v : Byte) (s : State) : (emitOut v s).faultPc = s.faultPc := rfl
@[simp] theorem emitOut_outEvents (v : Byte) (s : State) : (emitOut v s).outEvents = s.outEvents ++ [v] := rfl

@[simp] theorem raiseInvalidOpcode_mem (info : InvalidOpcodeInfo) (s : State) : (raiseInvalidOpcode info s).mem = s.mem := rfl
@[simp] theorem raiseInvalidOpcode_pc (info : InvalidOpcodeInfo) (s : State) : (raiseInvalidOpcode info s).pc = s.pc := rfl
@[simp] theorem raiseInvalidOpcode_a (info : InvalidOpcodeInfo) (s : State) : (raiseInvalidOpcode info s).a = s.a := rfl
@[simp] theorem raiseInvalidOpcode_b (info : InvalidOpcodeInfo) (s : State) : (raiseInvalidOpcode info s).b = s.b := rfl
@[simp] theorem raiseInvalidOpcode_o (info : InvalidOpcodeInfo) (s : State) : (raiseInvalidOpcode info s).o = s.o := rfl
@[simp] theorem raiseInvalidOpcode_c (info : InvalidOpcodeInfo) (s : State) : (raiseInvalidOpcode info s).c = s.c := rfl
@[simp] theorem raiseInvalidOpcode_z (info : InvalidOpcodeInfo) (s : State) : (raiseInvalidOpcode info s).z = s.z := rfl
@[simp] theorem raiseInvalidOpcode_halted (info : InvalidOpcodeInfo) (s : State) : (raiseInvalidOpcode info s).halted = s.halted := rfl
@[simp] theorem raiseInvalidOpcode_fault (info : InvalidOpcodeInfo) (s : State) : (raiseInvalidOpcode info s).fault = true := rfl
@[simp] theorem raiseInvalidOpcode_faultOpcode (info : InvalidOpcodeInfo) (s : State) : (raiseInvalidOpcode info s).faultOpcode = info.opcode := rfl
@[simp] theorem raiseInvalidOpcode_faultPc (info : InvalidOpcodeInfo) (s : State) : (raiseInvalidOpcode info s).faultPc = info.pc := rfl
@[simp] theorem raiseInvalidOpcode_outEvents (info : InvalidOpcodeInfo) (s : State) : (raiseInvalidOpcode info s).outEvents = s.outEvents := rfl

@[simp] theorem readReg_pc (s : State) : readReg .pc s = s.pc := rfl
@[simp] theorem readReg_a (s : State) : readReg .a s = s.a := rfl
@[simp] theorem readReg_b (s : State) : readReg .b s = s.b := rfl
@[simp] theorem readReg_o (s : State) : readReg .o s = s.o := rfl

/-- Two states with equal fields are equal. -/
theorem State.ext_fields {s t : State} (hmem : s.mem = t.mem) (hpc : s.pc = t.pc) (ha : s.a = t.a) (hb : s.b = t.b)
    (ho : s.o = t.o) (hc : s.c = t.c) (hz : s.z = t.z) (hh : s.halted = t.halted) (hf : s.fault = t.fault)
    (hfo : s.faultOpcode = t.faultOpcode) (hfp : s.faultPc = t.faultPc) (he : s.outEvents = t.outEvents) : s = t := by
  cases s; cases t; simp_all

end Sys2Proof.Machine
end

