-- ==== Sys2Proof/Laws/Ops.lean ====
section
/-! SUPPORT. What each shared operation does, said once. -/

namespace Sys2Proof.Machine

@[simp] theorem wrap8_uint (v : Byte) : wrap8 (uint v) = v := by
  simp [wrap8, uint]

theorem uint_wrap8 (v : Int) : uint (wrap8 v) = v % 256 := by
  simp only [uint, wrap8, BitVec.toNat_ofInt]
  omega

theorem uint_nonneg (v : Byte) : 0 ≤ uint v := Int.natCast_nonneg _

theorem uint_le (v : Byte) : uint v ≤ 255 := by
  have := v.isLt
  simp only [uint]; omega

theorem wrap8_add (a v : Byte) : wrap8 (uint a + uint v) = a + v := by
  apply BitVec.eq_of_toNat_eq
  simp only [wrap8, uint, BitVec.toNat_ofInt, BitVec.toNat_add]
  omega

theorem wrap8_sub (a v : Byte) : wrap8 (uint a - uint v) = a - v := by
  apply BitVec.eq_of_toNat_eq
  have := a.isLt
  have := v.isLt
  simp only [wrap8, uint, BitVec.toNat_ofInt, BitVec.toNat_sub]
  omega

@[simp] theorem inc8_eq (x : Byte) : inc8 x = x + 1 := wrap8_add x 1

theorem carry_add (a v : Byte) : (uint a + uint v > 255) = (255 < a.toNat + v.toNat) := by
  apply propext; simp only [uint]; omega

theorem carry_sub (a v : Byte) : (uint a - uint v > -1) = (v.toNat ≤ a.toNat) := by
  apply propext; simp only [uint]; omega

/-- One fetch answers the byte at `PC` and moves `PC` on by one; nothing else changes. -/
@[simp] theorem fetchByte_eq (s : State) : fetchByte s = (memRead s s.pc, { s with pc := s.pc + 1 }) := by
  simp [fetchByte, writeReg]

/-- Everything an addition does to the state. -/
theorem arithmetic_add (v : Byte) (s : State) :
    arithmetic aluAdd v s =
      { s with b := v, a := s.a + v, c := decide (255 < s.a.toNat + v.toNat), z := decide (s.a + v = 0) } := by
  simp only [arithmetic, aluAdd, zeroFlag, writeReg, setC, setZ, readReg, wrap8_uint, wrap8_add, carry_add]

/-- Everything a subtraction does to the state. -/
theorem arithmetic_sub (v : Byte) (s : State) :
    arithmetic aluSub v s =
      { s with b := v, a := s.a - v, c := decide (v.toNat ≤ s.a.toNat), z := decide (s.a - v = 0) } := by
  simp only [arithmetic, aluSub, zeroFlag, writeReg, setC, setZ, readReg, wrap8_uint, wrap8_sub, carry_sub]

/-- Everything an output does to the state. -/
theorem output_eq (v : Byte) (s : State) : output v s = { s with o := v, outEvents := s.outEvents ++ [v] } := by
  simp [output, emitOut, writeReg]

/-- Everything a jump does to the state. -/
theorem jumpIf_eq (taken : Bool) (x : Byte) (s : State) :
    jumpIf taken x s = { s with pc := if taken then x else s.pc } := by
  cases taken <;> simp [jumpIf, jumpTarget, writeReg]

/-- A direct store changes memory alone. -/
theorem directStore_eq (x v : Byte) (s : State) :
    directStore x v s = { s with mem := Memory.write s.mem x.toNat v } := by
  simp [directStore, effectiveAddress, memWrite]

theorem memRead_directStore (s : State) (x v addr : Byte) :
    memRead (directStore x v s) addr = if addr = x then v else memRead s addr := by
  simp [directStore, effectiveAddress, memRead_memWrite]

end Sys2Proof.Machine
end

