-- ==== Sys2Proof/Laws/PerInstr.lean ====
section
/-! SUPPORT. A family of facts stated once per instruction: the length of its encoding is the one its format gives. -/

namespace Sys2Proof.Laws.EncodedLength

/-- R70: format N is 1 byte, formats M and I are 2 bytes, under every opcode assignment. -/
def Statement (i : Instr) : Prop :=
  ∀ f : OpcodeMap, (encodeWith f i).length = match formatOf i.mnemonic with
    | .noOperand => 1
    | .address => 2
    | .immediate => 2

theorem hlt : Statement .hlt := fun _ => rfl
theorem lda (addr : Byte) : Statement (.lda addr) := fun _ => rfl
theorem ldb (addr : Byte) : Statement (.ldb addr) := fun _ => rfl
theorem ldia (imm : Byte) : Statement (.ldia imm) := fun _ => rfl
theorem ldib (imm : Byte) : Statement (.ldib imm) := fun _ => rfl
theorem sta (addr : Byte) : Statement (.sta addr) := fun _ => rfl
theorem stb (addr : Byte) : Statement (.stb addr) := fun _ => rfl
theorem add (addr : Byte) : Statement (.add addr) := fun _ => rfl
theorem addi (imm : Byte) : Statement (.addi imm) := fun _ => rfl
theorem sub (addr : Byte) : Statement (.sub addr) := fun _ => rfl
theorem subi (imm : Byte) : Statement (.subi imm) := fun _ => rfl
theorem outa : Statement .outa := fun _ => rfl
theorem outi (imm : Byte) : Statement (.outi imm) := fun _ => rfl
theorem jmp (addr : Byte) : Statement (.jmp addr) := fun _ => rfl
theorem jmpc (addr : Byte) : Statement (.jmpc addr) := fun _ => rfl
theorem jmpnc (addr : Byte) : Statement (.jmpnc addr) := fun _ => rfl
theorem jmpz (addr : Byte) : Statement (.jmpz addr) := fun _ => rfl

end Sys2Proof.Laws.EncodedLength
end

