-- ==== Sys2Proof/Laws/Step.lean ====
section
/-! SUPPORT. What a step can do, said once. -/

namespace Sys2Proof.Machine

/-- A core takes a step exactly when it is neither halted nor faulted. -/
theorem stoppedCore_none_iff (s : State) : stoppedCore s = none ↔ s.running = true := by
  cases hf : s.fault <;> cases hh : s.halted <;> simp [stoppedCore, State.running, hf, hh]

/-- A stopped core's outcome is no next state. -/
theorem stoppedCore_not_next {s t : State} : stoppedCore s ≠ some (.next t) := by
  cases hf : s.fault <;> cases hh : s.halted <;> simp [stoppedCore, hf, hh]

/-- The state an instruction leaves; every meaning answers one (`exec_eq`). -/
def effect (i : Instr) (s : State) : State :=
  match i with
  | .hlt => { s with halted := true }
  | .lda x => { s with a := memRead s x }
  | .ldb x => { s with b := memRead s x }
  | .ldia x => { s with a := x }
  | .ldib x => { s with b := x }
  | .sta x => { s with mem := Memory.write s.mem x.toNat s.a }
  | .stb x => { s with mem := Memory.write s.mem x.toNat s.b }
  | .add x => arithmetic aluAdd (memRead s x) s
  | .addi x => arithmetic aluAdd x s
  | .sub x => arithmetic aluSub (memRead s x) s
  | .subi x => arithmetic aluSub x s
  | .outa => { s with o := s.a, outEvents := s.outEvents ++ [s.a] }
  | .outi x => { s with o := x, outEvents := s.outEvents ++ [x] }
  | .jmp x => { s with pc := x }
  | .jmpc x => { s with pc := if s.c then x else s.pc }
  | .jmpnc x => { s with pc := if !s.c then x else s.pc }
  | .jmpz x => { s with pc := if s.z then x else s.pc }

/-- What `exec` does, for every instruction at once. -/
theorem exec_eq (i : Instr) (s : State) : exec i s = .next (effect i s) := by
  cases i <;>
    simp [exec, effect, execHlt, execLda, execLdb, execLdia, execLdib, execSta, execStb, execAdd, execAddi, execSub,
      execSubi, execOuta, execOuti, execJmp, execJmpc, execJmpnc, execJmpz, setHalted, writeReg, readReg, directValue,
      effectiveAddress, immediateValue, directStore_eq, output_eq, jumpIf_eq]

/-- The fetch of an invalid opcode. -/
theorem fetchInstr_invalid {f : OpcodeMap} {s : State} (h : mnemonicOf f (memRead s s.pc) = none) :
    fetchInstr f s = .invalid ⟨memRead s s.pc, s.pc⟩ { s with pc := s.pc + 1 } := by
  simp [fetchInstr, h]

/-- The fetch of a valid opcode: the instruction of its mnemonic and the byte after it, and `PC` past its bytes. -/
theorem fetchInstr_valid {f : OpcodeMap} {s : State} {m : Mnemonic} (h : mnemonicOf f (memRead s s.pc) = some m) :
    fetchInstr f s = .instr (buildInstr m (memRead s (s.pc + 1)))
      (s.pastInstr (buildInstr m (memRead s (s.pc + 1)))) := by
  simp only [fetchInstr, fetchByte_eq, h, fetchOperand, State.pastInstr, buildInstr_operand]
  cases hm : hasOperand m
  · cases m <;> simp_all [hasOperand, formatOf, buildInstr]
  · simp only [memRead, if_true, BitVec.add_assoc]
    rfl

/-- Everything a step that answers a next state can have done: the core was running, and either its opcode byte was
invalid and the exception was taken, or its instruction ran. -/
theorem step_cases {f : OpcodeMap} {s t : State} (h : stepWith f s = .next t) :
    s.running = true ∧
      ((mnemonicOf f (memRead s s.pc) = none ∧
          t = raiseInvalidOpcode ⟨memRead s s.pc, s.pc⟩ { s with pc := s.pc + 1 }) ∨
        ∃ m, mnemonicOf f (memRead s s.pc) = some m ∧
          t = effect (buildInstr m (memRead s (s.pc + 1))) (s.pastInstr (buildInstr m (memRead s (s.pc + 1))))) := by
  unfold stepWith at h
  split at h
  · next stop hs => exact absurd (h ▸ hs) stoppedCore_not_next
  · next hs =>
    refine ⟨(stoppedCore_none_iff s).mp hs, ?_⟩
    cases hm : mnemonicOf f (memRead s s.pc) with
    | none =>
      simp only [fetchInstr_invalid hm, Host.Outcome.next.injEq] at h
      exact .inl ⟨rfl, h.symm⟩
    | some m =>
      simp only [fetchInstr_valid hm, exec_eq, Host.Outcome.next.injEq] at h
      exact .inr ⟨m, rfl, h.symm⟩

end Sys2Proof.Machine
end

