-- ==== Sys2Proof/Tests/Slice0.lean ====
section
/-! SUPPORT. The model's own tests. Expected results come from spec/95_test_vectors.md (its section is named at each
group); the last group shows, for each statement with hypotheses, a concrete input that meets them. -/

namespace Sys2Proof.Tests

open Sys2Proof Sys2Proof.Machine

/-- A reset core with the given cells. -/
def withCells (cells : Memory) : State := { State.reset with mem := cells }

/-- The state after one step, where there is one. -/
def after (s : State) : Option State :=
  match step s with
  | .next t => some t
  | .fault _ => none
  | .refused _ => none

/-- `PC A B C Z` after one step, the notation of 95_test_vectors.md. -/
def after5 (s : State) : Option (Byte × Byte × Byte × Bool × Bool) :=
  (after s).map fun t => (t.pc, t.a, t.b, t.c, t.z)

/-- An opcode assignment other than decision D1's: the numbers in reverse. -/
def reversedMap : OpcodeMap := fun m => 16 - opcodeOf m

/-- An image of `n` zeros. -/
def zeros (n : Nat) : List Int := List.replicate n 0

theorem zeros_length (n : Nat) : (zeros n).length = n := List.length_replicate

theorem zeros_values_ok (n : Nat) : ∀ v ∈ zeros n, 0 ≤ v ∧ v ≤ 255 := by
  intro v h
  rw [List.eq_of_mem_replicate h]
  decide

theorem imageWf_zeros (n : Nat) : imageWf (zeros n) = decide (n ≤ 256) := by
  have : (zeros n).all imageValueOk = true :=
    List.all_eq_true.mpr fun v h => decide_eq_true (zeros_values_ok n v h)
  simp [imageWf, this, zeros_length, Config.maxImageLength]

theorem load_zeros_too_large (n : Nat) (h : 256 < n) : load (zeros n) = .failed .tooLarge := by
  have : (zeros n).all imageValueOk = true :=
    List.all_eq_true.mpr fun v h => decide_eq_true (zeros_values_ok n v h)
  simp [load, imageWf_zeros, Nat.not_le.mpr h, loadError, this, zeros_length, Config.maxImageLength, h]

/-! ### WellFormed refuses what is ill formed (2.7; 92_eei_decisions.md D1) -/

theorem test_wf_image_of_257_refused : imageWf (zeros 257) = false := (imageWf_zeros 257).trans (by decide)
theorem test_wf_image_of_256_accepted : imageWf (zeros 256) = true := (imageWf_zeros 256).trans (by decide)
theorem test_wf_image_value_256_refused : imageWf [256] = false := by decide
theorem test_wf_image_value_minus_1_refused : imageWf [-1] = false := by decide
theorem test_wf_opcode_map_not_injective_refused : OpcodeMap.wf (fun _ => 0) = false := by decide
theorem test_wf_reversed_map_accepted : reversedMap.wf = true := by decide

/-! ### Decoding, by words written out from R71 to R73 and R75 (2.1) -/

theorem test_decode_hlt : decode [0b00000000] = .ok .hlt [] := by decide
theorem test_decode_lda : decode [0b00000001, 0x09] = .ok (.lda 9) [] := by decide
theorem test_decode_ldb : decode [0b00000010, 0x15] = .ok (.ldb 21) [] := by decide
theorem test_decode_ldia : decode [0b00000011, 0x2A] = .ok (.ldia 42) [] := by decide
theorem test_decode_ldib : decode [0b00000100, 0xFF] = .ok (.ldib 255) [] := by decide
theorem test_decode_sta : decode [0b00000101, 0x09] = .ok (.sta 9) [] := by decide
theorem test_decode_stb : decode [0b00000110, 0x16] = .ok (.stb 22) [] := by decide
theorem test_decode_add : decode [0b00000111, 0x28] = .ok (.add 40) [] := by decide
theorem test_decode_addi : decode [0b00001000, 0x01] = .ok (.addi 1) [] := by decide
theorem test_decode_sub : decode [0b00001001, 0x28] = .ok (.sub 40) [] := by decide
theorem test_decode_subi : decode [0b00001010, 0x05] = .ok (.subi 5) [] := by decide
theorem test_decode_outa : decode [0b00001011, 0x77] = .ok .outa [0x77] := by decide
theorem test_decode_outi : decode [0b00001100, 0x00] = .ok (.outi 0) [] := by decide
theorem test_decode_jmp : decode [0b00001101, 0x00] = .ok (.jmp 0) [] := by decide
theorem test_decode_jmpc : decode [0b00001110, 0x0D] = .ok (.jmpc 13) [] := by decide
theorem test_decode_jmpnc : decode [0b00001111, 0x64] = .ok (.jmpnc 100) [] := by decide
theorem test_decode_jmpz : decode [0b00010000, 0x28] = .ok (.jmpz 40) [] := by decide
theorem test_decode_17_refused : decode [0x11, 0x05] = .refused (.invalidOpcode 0x11) := by decide
theorem test_decode_255_refused : decode [0xFF] = .refused (.invalidOpcode 0xFF) := by decide
theorem test_decode_missing_operand : decode [0x01] = .refused (.noOperandByte .lda) := by decide
theorem test_decode_no_bytes : decode [] = .refused .noOpcode := by decide
theorem test_encode_jmpnc : encode (.jmpnc 100) = [0x0F, 0x64] := by decide
theorem test_table_word_one_byte : decodeTableWord 8 0x01 = some (.lda 0) := by decide
theorem test_table_word_two_bytes : decodeTableWord 16 0x0901 = some (.lda 9) := by decide
theorem test_fetch_word_runs : after5 (State.reset.withFetchWord 16 0x0703) = some (2, 7, 0, false, false) := by decide

/-! ### HLT and stopped cores (2.2, L1-2) -/

theorem test_hlt_from_reset : after State.reset = some { State.reset with pc := 1, halted := true } := by decide
theorem test_hlt_at_255 : after { withCells [] with pc := 255, a := 7, c := true, z := true } =
    some { withCells [] with pc := 0, a := 7, c := true, z := true, halted := true } := by decide
theorem test_halted_core_takes_no_step : step { State.reset with halted := true } = .refused .coreHalted := by rfl
theorem test_faulted_core_takes_no_step : step { State.reset with fault := true } = .fault .coreFaulted := by rfl

/-! ### Loads and stores (2.3) -/

theorem test_lda_9 : after5 { withCells [(0, 0x01), (1, 9), (9, 7)] with c := true, z := true } =
    some (2, 7, 0, true, true) := by decide
theorem test_lda_own_operand : after5 (withCells [(0, 0x01), (1, 1)]) = some (2, 1, 0, false, false) := by decide
theorem test_ldb_21 : after5 (withCells [(0, 0x02), (1, 0x15), (21, 233)]) = some (2, 0, 233, false, false) := by decide
theorem test_ldia_0_keeps_z : after5 { withCells [(0, 0x03)] with a := 5 } = some (2, 0, 0, false, false) := by decide
theorem test_ldia_at_255_operand_at_0 : after5 { withCells [(0, 0x2A), (255, 0x03)] with pc := 255 } =
    some (1, 42, 0, false, false) := by decide
theorem test_ldib_255 : after5 (withCells [(0, 0x04), (1, 0xFF)]) = some (2, 0, 255, false, false) := by decide
theorem test_sta_own_opcode : after { withCells [(0, 0x05)] with a := 77 } =
    some { withCells [(0, 77)] with pc := 2, a := 77 } := by decide
theorem test_sta_next_opcode : after { withCells [(0, 0x05), (1, 2)] with a := 11 } =
    some { withCells [(0, 0x05), (1, 2), (2, 11)] with pc := 2, a := 11 } := by decide
theorem test_stb_22 : after { withCells [(0, 0x06), (1, 0x16)] with b := 233 } =
    some { withCells [(0, 0x06), (1, 0x16), (22, 233)] with pc := 2, b := 233 } := by decide
theorem test_stb_zero_keeps_canonical_form : after (withCells [(0, 0x06), (1, 0x16), (22, 9)]) =
    some { withCells [(0, 0x06), (1, 0x16)] with pc := 2 } := by decide

/-! ### Arithmetic (2.4) -/

theorem test_add_carry : after5 { withCells [(0, 0x07), (1, 40), (40, 10)] with a := 250 } =
    some (2, 4, 10, true, false) := by decide
theorem test_add_to_256 : after5 { withCells [(0, 0x07), (1, 40), (40, 128)] with a := 128 } =
    some (2, 0, 128, true, true) := by decide
theorem test_addi_replaces_b : after5 { withCells [(0, 0x08), (1, 7)] with b := 50 } =
    some (2, 7, 7, false, false) := by decide
theorem test_addi_0_clears_flags : after5 { withCells [(0, 0x08)] with a := 9, c := true, z := true } =
    some (2, 9, 0, false, false) := by decide
theorem test_sub_borrow : after5 { withCells [(0, 0x09), (1, 40), (40, 5)] with a := 3 } =
    some (2, 254, 5, false, false) := by decide
theorem test_sub_0_never_borrows : after5 { withCells [(0, 0x09), (1, 40)] with a := 7 } =
    some (2, 7, 0, true, false) := by decide
theorem test_subi_equal : after5 { withCells [(0, 0x0A), (1, 5)] with a := 5 } = some (2, 0, 5, true, true) := by decide
theorem test_subi_unsigned : after5 { withCells [(0, 0x0A), (1, 128)] with a := 127 } =
    some (2, 255, 128, false, false) := by decide

/-! ### Output (2.5) -/

theorem test_outa_event_though_unchanged : after { withCells [(0, 0x0B)] with a := 13, o := 13, outEvents := [13] } =
    some { withCells [(0, 0x0B)] with pc := 1, a := 13, o := 13, outEvents := [13, 13] } := by decide
theorem test_outa_at_255 : after { withCells [(255, 0x0B)] with pc := 255, a := 7 } =
    some { withCells [(255, 0x0B)] with pc := 0, a := 7, o := 7, outEvents := [7] } := by decide
theorem test_outi_0 : after { withCells [(0, 0x0C)] with o := 9 } =
    some { withCells [(0, 0x0C)] with pc := 2, o := 0, outEvents := [0] } := by decide

/-! ### Control transfer (2.6) -/

theorem test_jmp_self : after { withCells [(7, 0x0D), (8, 7)] with pc := 7 } =
    some { withCells [(7, 0x0D), (8, 7)] with pc := 7 } := by decide
theorem test_jmpc_taken : (after { withCells [(9, 0x0E), (10, 13)] with pc := 9, c := true }).map State.pc = some 13 := by
  decide
theorem test_jmpc_not_taken_wraps : (after { withCells [(254, 0x0E), (255, 13)] with pc := 254 }).map State.pc = some 0 := by
  decide
theorem test_jmpnc_taken : (after { withCells [(20, 0x0F), (21, 100)] with pc := 20 }).map State.pc = some 100 := by decide
theorem test_jmpnc_not_taken : (after { withCells [(20, 0x0F), (21, 100)] with pc := 20, c := true }).map State.pc =
    some 22 := by decide
theorem test_jmpz_taken : (after { withCells [(5, 0x10), (6, 40)] with pc := 5, z := true }).map State.pc = some 40 := by
  decide
theorem test_jmpz_not_taken : (after { withCells [(5, 0x10), (6, 40)] with pc := 5 }).map State.pc = some 7 := by decide

/-! ### Faults and load (2.7, L1-1, L1-9) -/

theorem test_invalid_opcode_at_255 : after { withCells [(255, 0xC8)] with pc := 255, a := 3, c := true } =
    some { withCells [(255, 0xC8)] with pc := 0, a := 3, c := true, fault := true, faultOpcode := 200, faultPc := 255 } := by
  decide
theorem test_outcomes : (stepResultWith opcodeOf (withCells [(0, 0xFF)]), stepResultWith opcodeOf State.reset,
    stepResultWith opcodeOf (withCells [(0, 0x03)])) = (some .faulted, some .halted, some .running) := by decide
theorem test_load_empty : load [] = .ok State.reset := by decide
theorem test_load_places_image : load [0x0B, 0, 5] = .ok (withCells [(0, 0x0B), (2, 5)]) := by decide
theorem test_load_bad_value : load [256] = .failed .badValue := by decide
theorem test_load_too_large : load (zeros 257) = .failed .tooLarge := load_zeros_too_large 257 (by decide)
theorem test_failed_load_keeps_core : hostLoad [-1] (some { State.reset with a := 4 }) =
    (.failed .badValue, some { State.reset with a := 4 }) := by decide
theorem test_write_register_wraps :
    [(256 : Int), -1, 260].map (fun v => (writeReg .a v State.reset).a) = [0, 255, 4] := by decide
theorem test_accesses_of_add : stepAccesses opcodeOf (withCells [(0, 0x07), (1, 40), (40, 10)]) =
    [.read 0 0x07, .read 1 40, .read 40 10] := by decide

/-! ### Witnesses: the hypotheses of each statement are met -/

/-- A core about to run `LDA 9`, with `mem[9] = 7`. -/
def ldaState : State := withCells [(0, 0x01), (1, 9), (9, 7)]

/-- A core about to fetch an invalid byte at address 255. -/
def invalidState : State := { withCells [(255, 0x11)] with pc := 255 }

/-- A core about to run a 2-byte instruction whose opcode is at 255 and whose operand 0x2A is at 0. -/
def straddling (op : Byte) : State := { withCells [(0, 0x2A), (255, op)] with pc := 255 }

theorem witness_DecodeOfEncodeIsTheInstruction : opcodeOf.wf = true ∧ reversedMap.wf = true := by decide

theorem witness_DecodedBytesAreTheEncoding : decodeWith reversedMap [0x0F, 9, 1] = .ok (.lda 9) [1] := by decide

theorem witness_OpcodeByteFixesFormatAndLength :
    reversedMap.wf = true ∧ (encodeWith reversedMap (.lda 1)).head? = (encodeWith reversedMap (.lda 2)).head? ∧
    formatOf (Instr.mnemonic .outa) = .noOperand ∧ formatOf (Instr.mnemonic (.lda 1)) ≠ .noOperand := by decide

theorem witness_OpcodeBytesAbove16AreInvalid :
    opcodeOf.wf = true ∧ 16 < (0x11 : Byte).toNat ∧ 16 < (0xFF : Byte).toNat ∧ (0x10 : Byte).toNat ≤ 16 ∧
    invalidState.running = true ∧ 16 < (memRead invalidState invalidState.pc).toNat := by decide

theorem witness_StepRunsDecodedInstruction :
    (straddling 0x03).running = true ∧
    decode [memRead (straddling 0x03) (straddling 0x03).pc, memRead (straddling 0x03) ((straddling 0x03).pc + 1)] =
      .ok (.ldia 42) [] ∧
    (straddling 0x03).fetches opcodeOf (.ldia 42) ∧
    decode [memRead (straddling 0x0B) (straddling 0x0B).pc, memRead (straddling 0x0B) ((straddling 0x0B).pc + 1)] =
      .ok .outa [0x2A] := by decide

theorem witness_InvalidOpcodeTakesTheException :
    invalidState.fetchesInvalid ∧ (withCells [(0, 0xFF)]).fetchesInvalid := by decide

theorem witness_StoppedCoreTakesNoStep :
    ({ State.reset with fault := true } : State).fault = true ∧ ({ State.reset with halted := true } : State).halted = true ∧
    ({ State.reset with halted := true } : State).fault = false := by decide

theorem witness_EveryRunningCoreSteps : State.reset.halted = false ∧ State.reset.fault = false := by decide

theorem witness_StepReportsItsOutcome : opcodeOf.wf = true ∧ invalidState.running = true ∧ ldaState.running = true ∧
    memRead State.reset State.reset.pc = opcodeByte opcodeOf .hlt := by decide

theorem witness_StepEndsARunAsItReports :
    after State.reset ≠ none ∧ after invalidState ≠ none ∧ after ldaState ≠ none := by decide

theorem witness_RunResumesWhereItStopped :
    ({ State.reset with halted := true } : State).halted = true ∧ ({ State.reset with fault := true } : State).fault = true := by
  decide

theorem witness_PcAtEndOfStep : opcodeOf.wf = true ∧ invalidState.fetchesInvalid ∧ ldaState.fetches opcodeOf (.lda 9) ∧
    State.reset.fetches opcodeOf .hlt ∧ (straddling 0x0D).fetches opcodeOf (.jmp 0x2A) ∧
    (straddling 0x0E).fetches opcodeOf (.jmpc 0x2A) ∧ (straddling 0x0F).fetches opcodeOf (.jmpnc 0x2A) ∧
    (straddling 0x10).fetches opcodeOf (.jmpz 0x2A) := by decide

theorem witness_RegisterWritesWrapModulo256 : Reg.a ≠ Reg.pc := by decide

theorem witness_RegisterAReadersAndWriters :
    (exec (.lda 9) ldaState = .next { ldaState with a := 7 } ∧ ({ ldaState with a := 7 } : State).a ≠ ldaState.a) ∧
    Instr.mnemonic (.lda 9) ∉ [Mnemonic.sta, .add, .addi, .sub, .subi, .outa] ∧
    exec (.lda 9) { ldaState with a := 3 } = .next { ldaState with a := 7 } :=
  ⟨⟨rfl, by decide⟩, by decide, rfl⟩

theorem witness_RegisterBReadersAndWriters :
    (exec (.ldb 9) ldaState = .next { ldaState with b := 7 } ∧ ({ ldaState with b := 7 } : State).b ≠ ldaState.b) ∧
    Instr.mnemonic (.ldb 9) ≠ .stb ∧ exec (.ldb 9) { ldaState with b := 3 } = .next { ldaState with b := 7 } :=
  ⟨⟨rfl, by decide⟩, by decide, rfl⟩

theorem witness_OutputLatchWrittenOnlyByOutputs :
    (exec (.lda 9) ldaState = .next { ldaState with a := 7 } ∧ Instr.mnemonic (.lda 9) ∉ [Mnemonic.outa, .outi]) ∧
    (invalidState.fetchesInvalid ∧ after invalidState ≠ none) ∧
    exec (.lda 9) { ldaState with o := 5 } = .next { ldaState with a := 7, o := 5 } :=
  ⟨⟨rfl, by decide⟩, by decide, rfl⟩

theorem witness_FlagsAreSticky :
    (exec (.lda 9) ldaState = .next { ldaState with a := 7 } ∧
      Instr.mnemonic (.lda 9) ∉ [Mnemonic.add, .addi, .sub, .subi, .jmpc, .jmpnc, .jmpz]) ∧
    Instr.mnemonic (.sub 9) ∈ [Mnemonic.add, .addi, .sub, .subi] ∧ invalidState.fetchesInvalid ∧
    exec (.jmpc 9) ldaState = .next ldaState ∧
    exec (.jmpc 9) { ldaState with c := true, z := true } = .next { ldaState with pc := 9, c := true, z := true } :=
  ⟨⟨rfl, by decide⟩, by decide, by decide, rfl, rfl⟩

theorem witness_HaltedIsSetOnlyByHlt :
    (opcodeOf.wf = true ∧ ldaState.running = true ∧ State.reset.running = true) ∧
    exec (.ldia 1) { State.reset with halted := true } = .next { State.reset with a := 1, halted := true } ∧
    exec (.ldia 1) State.reset = .next { State.reset with a := 1 } ∧ load [0] = .ok State.reset :=
  ⟨by decide, rfl, rfl, by decide⟩

theorem witness_FaultRecordIsSetOnlyByTheException :
    opcodeOf.wf = true ∧ stepWith opcodeOf State.reset = .next { State.reset with pc := 1, halted := true } ∧
    (after invalidState ≠ none ∧ 16 < (memRead invalidState invalidState.pc).toNat) ∧
    exec (.ldia 1) State.reset = .next { State.reset with a := 1 } ∧
    exec (.ldia 1) { State.reset with fault := true, faultOpcode := 17, faultPc := 3 } =
      .next { State.reset with a := 1, fault := true, faultOpcode := 17, faultPc := 3 } :=
  ⟨by decide, rfl, by decide, rfl, rfl⟩

theorem witness_MemWriteSetsOneCell : (255 : Byte) ≠ 0 := by decide

theorem witness_OnlyStoresChangeMemory :
    exec (.sta 9) { ldaState with a := 4 } = .next { withCells [(0, 0x01), (1, 9), (9, 4)] with a := 4 } ∧
    ∀ x, Instr.sta 9 = .sta x ∨ Instr.sta 9 = .stb x → (255 : Byte) ≠ effectiveAddress x := by
  refine ⟨rfl, fun x h => ?_⟩
  rcases h with h | h
  · injection h with h; subst h; decide
  · cases h

theorem witness_StepMakesTheseAccesses :
    (opcodeOf.wf = true ∧ invalidState.fetchesInvalid ∧ ldaState.fetches opcodeOf (.lda 9) ∧
      (straddling 0x05).fetches opcodeOf (.sta 0x2A)) ∧
    (after (straddling 0x05) ≠ none ∧ .write 0x2A 0 ∈ stepAccesses opcodeOf (straddling 0x05)) := by decide

theorem witness_StepDependsOnlyOnCellsItReads :
    (∀ addr v, .read addr v ∈ stepAccesses opcodeOf ldaState →
      memRead { ldaState with mem := [(0, 0x01), (1, 9), (9, 7), (200, 5)] } addr = v) ∧ after ldaState ≠ none := by
  refine ⟨fun addr v h => ?_, by decide⟩
  have hacc : stepAccesses opcodeOf ldaState = [.read 0 0x01, .read 1 9, .read 9 7] := by decide
  rw [hacc] at h
  simp only [List.mem_cons, Access.read.injEq, List.not_mem_nil, or_false] at h
  rcases h with ⟨rfl, rfl⟩ | ⟨rfl, rfl⟩ | ⟨rfl, rfl⟩ <;> decide

/-- STA and STB; a stored opcode without and with an operand, 16 (JMPZ) the highest of them, and 17, the lowest value
that is none. -/
theorem witness_StoreIsSeenByTheNextFetch :
    opcodeOf.wf = true ∧
    State.fetches opcodeOf { withCells [(0, 0x05), (1, 2)] with a := 0 } (.sta 2) ∧
    (0 : Byte) = opcodeByte opcodeOf (Instr.mnemonic .hlt) ∧ Instr.operand .hlt = none ∧
    State.fetches opcodeOf { withCells [(0, 0x05), (1, 2), (3, 8)] with a := 16 } (.sta 2) ∧
    State.fetches opcodeOf { withCells [(0, 0x06), (1, 2), (3, 8)] with b := 16 } (.stb 2) ∧
    (16 : Byte) = opcodeByte opcodeOf (Instr.mnemonic (.jmpz 8)) ∧
    Instr.operand (.jmpz 8) = some (memRead (withCells [(0, 0x05), (1, 2), (3, 8)]) (0 + 3)) ∧
    Instr.operand (.jmpz 8) = some (memRead (withCells [(0, 0x06), (1, 2), (3, 8)]) (0 + 3)) ∧
    State.fetches opcodeOf { withCells [(0, 0x05), (1, 2)] with a := 17 } (.sta 2) ∧
    State.fetches opcodeOf { withCells [(0, 0x06), (1, 2)] with b := 17 } (.stb 2) ∧ 16 < (17 : Byte).toNat := by decide

/-- The hypotheses of LdaLoadsAFromMemory, LdbLoadsBFromMemory, LdiaLoadsAWithTheImmediate, LdibLoadsBWithTheImmediate,
StaStoresAToMemory and StbStoresBToMemory. -/
theorem witness_loads_and_stores : opcodeOf.wf = true ∧ ldaState.fetches opcodeOf (.lda 9) ∧
    (straddling 0x02).fetches opcodeOf (.ldb 0x2A) ∧ (straddling 0x03).fetches opcodeOf (.ldia 0x2A) ∧
    (straddling 0x04).fetches opcodeOf (.ldib 0x2A) ∧ (straddling 0x05).fetches opcodeOf (.sta 0x2A) ∧
    (straddling 0x06).fetches opcodeOf (.stb 0x2A) := by decide

/-- The hypotheses of AddAddsMemoryToA, AddiAddsTheImmediateToA, SubSubtractsMemoryFromA and
SubiSubtractsTheImmediateFromA. -/
theorem witness_arithmetic : opcodeOf.wf = true ∧ (straddling 0x07).fetches opcodeOf (.add 0x2A) ∧
    (straddling 0x08).fetches opcodeOf (.addi 0x2A) ∧ (straddling 0x09).fetches opcodeOf (.sub 0x2A) ∧
    (straddling 0x0A).fetches opcodeOf (.subi 0x2A) ∧ (7 : Byte) = memRead ldaState 9 := by decide

theorem witness_FlagOrderInArithmetic :
    (Instr.add 9 = .add 9 ∧ (7 : Byte) = memRead ldaState 9) ∧ (249 : Byte).toNat + (7 : Byte).toNat = 256 ∧
    (Instr.subi 7 = .subi 7 ∧ (7 : Byte) = 7) := by decide

/-- The hypotheses of HltHaltsTheCore, OutaOutputsA, OutiOutputsTheImmediate, JmpSetsPc, and JmpcJumpsIfCarry,
JmpncJumpsIfNotCarry and JmpzJumpsIfZero, taken and not taken. -/
theorem witness_output_and_control : opcodeOf.wf = true ∧ (straddling 0x00).fetches opcodeOf .hlt ∧
    (straddling 0x0B).fetches opcodeOf .outa ∧ (straddling 0x0C).fetches opcodeOf (.outi 0x2A) ∧
    (straddling 0x0D).fetches opcodeOf (.jmp 0x2A) ∧ (straddling 0x0E).fetches opcodeOf (.jmpc 0x2A) ∧
    State.fetches opcodeOf { straddling 0x0E with c := true } (.jmpc 0x2A) ∧
    (straddling 0x0F).fetches opcodeOf (.jmpnc 0x2A) ∧ State.fetches opcodeOf { straddling 0x0F with c := true } (.jmpnc 0x2A) ∧
    (straddling 0x10).fetches opcodeOf (.jmpz 0x2A) ∧ State.fetches opcodeOf { straddling 0x10 with z := true } (.jmpz 0x2A) := by
  decide

theorem witness_OnlyOutputStepsEmitEvents :
    opcodeOf.wf = true ∧ after (straddling 0x0B) ≠ none ∧
    memRead (straddling 0x0B) (straddling 0x0B).pc = opcodeByte opcodeOf .outa ∧ after ldaState ≠ none := by decide

theorem witness_JumpsWriteOnlyPc :
    opcodeOf.wf = true ∧ Instr.mnemonic (.jmpc 0x2A) ∈ [Mnemonic.jmp, .jmpc, .jmpnc, .jmpz] ∧
    (straddling 0x0E).fetches opcodeOf (.jmpc 0x2A) ∧
    State.fetches opcodeOf { withCells [(7, 0x0D), (8, 7)] with pc := 7 } (.jmp 7) := by decide

theorem witness_LoadInstallsTheImage :
    ([255, 0, 5] : List Int).length ≤ 256 ∧ (∀ v ∈ ([255, 0, 5] : List Int), 0 ≤ v ∧ v ≤ 255) := by decide

theorem witness_LoadRefusesBadImages :
    256 < (zeros 257).length ∧ (∀ v ∈ zeros 257, 0 ≤ v ∧ v ≤ 255) ∧
    (∃ v ∈ ([-1] : List Int), v < 0 ∨ 255 < v) ∧ (∃ v ∈ ([256] : List Int), v < 0 ∨ 255 < v) ∧
    ([256] : List Int).length ≤ 256 :=
  ⟨by rw [zeros_length]; decide, zeros_values_ok 257, by decide, by decide, by decide⟩

theorem witness_InvariantHoldsAfterLoad : load [0x11, 5] = .ok (withCells [(0, 0x11), (1, 5)]) := by decide

/-- The step statement's hypotheses: a state that meets the invariant and takes a step. -/
theorem witness_EveryStepKeepsTheInvariant :
    opcodeOf.wf = true ∧ State.reset.Inv opcodeOf ∧ step State.reset = .next { State.reset with pc := 1, halted := true } :=
  ⟨opcodeOf_wf, ⟨by decide, by decide, by decide, by decide, by decide⟩, rfl⟩

end Sys2Proof.Tests
end

section
/-! PROOFS. 10_state.md, the statements about a register write, `A`, `O`, the flags and `halted`: first what holds of
register writes, of one instruction's effect and of one step, then the statements. -/

namespace Sys2Proof.Machine

/-! ### Register writes -/

@[simp] theorem readReg_writeReg_same (r : Reg) (v : Int) (s : State) : readReg r (writeReg r v s) = wrap8 v := by
  cases r <;> rfl

theorem readReg_writeReg_of_ne {r r' : Reg} (h : r' ≠ r) (v : Int) (s : State) :
    readReg r' (writeReg r v s) = readReg r' s := by
  cases r <;> cases r' <;> simp at h <;> rfl

@[simp] theorem memRead_writeReg (r : Reg) (v : Int) (s : State) (addr : Byte) :
    memRead (writeReg r v s) addr = memRead s addr := by
  cases r <;> rfl

theorem writeReg_changes_registers_only (r : Reg) (v : Int) (s : State) :
    ∃ pc a b o, writeReg r v s = { s with pc := pc, a := a, b := b, o := o } := by
  cases r <;> exact ⟨_, _, _, _, rfl⟩

/-! ### What one instruction writes -/

theorem eq_effect_of_exec {i : Instr} {s t : State} (h : exec i s = .next t) : t = effect i s := by
  rw [exec_eq, Host.Outcome.next.injEq] at h
  exact h.symm

theorem effect_a_of_not_writer {i : Instr} (h : i.mnemonic ∉ [Mnemonic.lda, .ldia, .add, .addi, .sub, .subi])
    (s : State) : (effect i s).a = s.a := by
  cases i <;> simp [Instr.mnemonic] at h <;> rfl

theorem effect_o_of_not_output {i : Instr} (h : i.mnemonic ∉ [Mnemonic.outa, .outi]) (s : State) :
    (effect i s).o = s.o := by
  cases i <;> simp [Instr.mnemonic] at h <;> rfl

theorem effect_flags_of_not_arithmetic {i : Instr} (h : i.mnemonic ∉ [Mnemonic.add, .addi, .sub, .subi])
    (s : State) : (effect i s).c = s.c ∧ (effect i s).z = s.z := by
  cases i <;> simp [Instr.mnemonic] at h <;> exact ⟨rfl, rfl⟩

theorem effect_halted (i : Instr) (s : State) :
    (effect i s).halted = (s.halted || decide (i.mnemonic = .hlt)) := by
  cases i <;> simp [effect, Instr.mnemonic, arithmetic]

/-! ### What one instruction reads: its effect on a state that differs in one field -/

theorem effect_with_a {i : Instr} (h : i.mnemonic ∉ [Mnemonic.sta, .add, .addi, .sub, .subi, .outa])
    (s : State) (v : Byte) :
    effect i { s with a := v } =
      { effect i s with a := if i.mnemonic ∈ [Mnemonic.lda, .ldia] then (effect i s).a else v } := by
  cases i <;> simp [Instr.mnemonic] at h <;> rfl

theorem effect_with_o (i : Instr) (s : State) (v : Byte) :
    effect i { s with o := v } =
      { effect i s with o := if i.mnemonic ∈ [Mnemonic.outa, .outi] then (effect i s).o else v } := by
  cases i <;> rfl

theorem effect_with_halted (i : Instr) (s : State) (b : Bool) :
    { effect i { s with halted := b } with halted := (effect i s).halted } = effect i s := by
  cases i <;> rfl

theorem effect_with_flags_of_arithmetic {i : Instr} (h : i.mnemonic ∈ [Mnemonic.add, .addi, .sub, .subi])
    (s : State) (c z : Bool) : effect i { s with c := c, z := z } = effect i s := by
  cases i <;> simp [Instr.mnemonic] at h <;> rfl

/-- The flags an instruction starts from reach nothing but the flags and `PC`. -/
theorem effect_with_flags (i : Instr) (s : State) (c z : Bool) :
    { effect i { s with c := c, z := z } with pc := (effect i s).pc, c := (effect i s).c, z := (effect i s).z } =
      effect i s := by
  cases i <;> rfl

theorem effect_pc_with_flags {i : Instr} (h : i.mnemonic ∉ [Mnemonic.jmpc, .jmpnc, .jmpz])
    (s : State) (c z : Bool) : (effect i { s with c := c, z := z }).pc = (effect i s).pc := by
  cases i <;> simp [Instr.mnemonic] at h <;> rfl

/-! ### A core on which each writer of `A` changes it and each reader shows it -/

/-- A reset core with 1 in cell 1: there the byte 1 is an operand value and the address of one. -/
def oneAtOne : State := { State.reset with mem := [(1, 1)] }

theorem effect_writes_a_of_writer : ∀ m ∈ [Mnemonic.lda, .ldia, .add, .addi, .sub, .subi],
    (effect (buildInstr m 1) oneAtOne).a ≠ oneAtOne.a := by
  decide

/-- From 0 and from 255 in `A`, STA and OUTA pass on different bytes, and the other four end with different carries. -/
theorem effect_reads_a_of_reader : ∀ m ∈ [Mnemonic.sta, .add, .addi, .sub, .subi, .outa],
    { effect (buildInstr m 1) { oneAtOne with a := 255 } with a := (effect (buildInstr m 1) oneAtOne).a } ≠
      effect (buildInstr m 1) oneAtOne := by
  decide

/-! ### One step of a running core, and a load -/

theorem mnemonicOf_eq_none_of_gt {f : OpcodeMap} {op : Byte} (h : 16 < op.toNat) : mnemonicOf f op = none := by
  cases hm : mnemonicOf f op with
  | none => rfl
  | some m =>
    have hle := opcodeByte_le f m
    rw [opcodeByte_of_mnemonicOf hm] at hle
    omega

theorem stepWith_of_invalid {f : OpcodeMap} {s : State} (hs : s.running = true)
    (hm : mnemonicOf f (memRead s s.pc) = none) :
    stepWith f s = .next (raiseInvalidOpcode ⟨memRead s s.pc, s.pc⟩ { s with pc := s.pc + 1 }) := by
  simp only [stepWith, (stoppedCore_none_iff s).mpr hs, fetchInstr_invalid hm]

theorem stepWith_of_valid {f : OpcodeMap} {s : State} {m : Mnemonic} (hs : s.running = true)
    (hm : mnemonicOf f (memRead s s.pc) = some m) :
    stepWith f s = .next (effect (buildInstr m (memRead s (s.pc + 1)))
      (s.pastInstr (buildInstr m (memRead s (s.pc + 1))))) := by
  simp only [stepWith, (stoppedCore_none_iff s).mpr hs, fetchInstr_valid hm, exec_eq]

theorem stepWith_of_fetchesInvalid (f : OpcodeMap) {s : State} (h : s.fetchesInvalid) :
    stepWith f s = .next (raiseInvalidOpcode ⟨memRead s s.pc, s.pc⟩ { s with pc := s.pc + 1 }) :=
  stepWith_of_invalid h.1 (mnemonicOf_eq_none_of_gt h.2)

theorem State.not_halted_of_running {s : State} (h : s.running = true) : s.halted = false := by
  simp only [State.running, Bool.and_eq_true, Bool.not_eq_true'] at h
  exact h.1

/-- A running core's step ends halted exactly on HLT's opcode byte: the exception leaves `halted`, and an instruction
sets it exactly when its mnemonic is HLT. -/
theorem stepWith_halted_iff {f : OpcodeMap} (hf : f.wf = true) {s : State} (hs : s.running = true) :
    ∃ t, stepWith f s = .next t ∧ (t.halted = true ↔ memRead s s.pc = opcodeByte f .hlt) := by
  have hh : s.halted = false := State.not_halted_of_running hs
  cases hm : mnemonicOf f (memRead s s.pc) with
  | none =>
    have hne : memRead s s.pc ≠ opcodeByte f .hlt := by
      intro h
      rw [h, mnemonicOf_opcodeByte hf] at hm
      cases hm
    exact ⟨_, stepWith_of_invalid hs hm, by simp [hh, hne]⟩
  | some m =>
    have hop : opcodeByte f m = opcodeByte f .hlt ↔ m = .hlt := ⟨opcodeByte_inj hf, fun h => by rw [h]⟩
    refine ⟨_, stepWith_of_valid hs hm, ?_⟩
    rw [← opcodeByte_of_mnemonicOf hm, hop]
    simp [effect_halted, State.pastInstr, hh]

theorem eq_loadedState_of_load {image : List Int} {t : State} (h : load image = .ok t) : t = loadedState image := by
  unfold load at h
  split at h
  · exact (LoadResult.ok.inj h).symm
  · cases h

/-! ### The statements -/

/-- Settles O14: the four registers are fields of their own, and each is written through `wrap8`. -/
theorem registerWritesWrapModulo256 : Obligations.RegisterWritesWrapModulo256 := by
  intro r v s
  refine ⟨Nat.le_of_lt_succ (readReg r s).isLt, ?_, fun r' h => readReg_writeReg_of_ne h v s,
    writeReg_changes_registers_only r v s⟩
  rw [readReg_writeReg_same]
  exact uint_wrap8 v

/-- Settles O15: the frame of `A`, its noninterference, and the core `oneAtOne` where each writer changes `A` and each
reader shows it. -/
theorem registerAReadersAndWriters : Obligations.RegisterAReadersAndWriters := by
  refine ⟨?writers, ?written, ?readers, ?read, fun v s => wrap8_uint v,
    fun r v s h => readReg_writeReg_of_ne h.symm v s,
    fun addr v s => ⟨rfl, fun w other => memRead_writeReg .a w s other⟩, rfl⟩
  case writers =>
    intro i s t h ha
    by_contra hi
    exact ha (eq_effect_of_exec h ▸ effect_a_of_not_writer hi s)
  case written =>
    intro m hm
    exact ⟨buildInstr m 1, oneAtOne, _, buildInstr_mnemonic m 1, exec_eq _ _, effect_writes_a_of_writer m hm⟩
  case readers =>
    intro i s t t' v hi h h'
    obtain rfl := eq_effect_of_exec h
    obtain rfl := eq_effect_of_exec h'
    rw [effect_with_a hi]
    exact ⟨rfl, fun hw => if_pos hw⟩
  case read =>
    intro m hm
    exact ⟨buildInstr m 1, oneAtOne, _, _, 255, buildInstr_mnemonic m 1, exec_eq _ _, exec_eq _ _,
      effect_reads_a_of_reader m hm⟩

/-- Settles O17: the frame of `O` over instructions and the exception, and its noninterference. -/
theorem outputLatchWrittenOnlyByOutputs : Obligations.OutputLatchWrittenOnlyByOutputs := by
  refine ⟨fun s => ⟨_, exec_eq .outa s, rfl⟩, fun x s => ⟨_, exec_eq (.outi x) s, rfl⟩,
    fun i s t h hi => eq_effect_of_exec h ▸ effect_o_of_not_output hi s, ?exception, ?readers, fun _ => rfl, rfl⟩
  case exception =>
    intro f s t hs h
    rw [stepWith_of_fetchesInvalid f hs, Host.Outcome.next.injEq] at h
    rw [← h, raiseInvalidOpcode_o]
  case readers =>
    intro i s t t' v h h'
    obtain rfl := eq_effect_of_exec h
    obtain rfl := eq_effect_of_exec h'
    rw [effect_with_o]
    exact ⟨rfl, fun hw => if_pos hw⟩

/-- Settles O18: the frame of the flags over instructions and the exception, that arithmetic overwrites both, and that
the flags an instruction starts from reach nothing else but a conditional jump's `PC`. -/
theorem flagsAreSticky : Obligations.FlagsAreSticky := by
  refine ⟨fun i s t h hi => eq_effect_of_exec h ▸ effect_flags_of_not_arithmetic hi s, ?overwritten,
    fun f s hs => ⟨_, stepWith_of_fetchesInvalid f hs, rfl, rfl⟩, ?readers⟩
  case overwritten =>
    intro i s c z hi
    rw [exec_eq, exec_eq, effect_with_flags_of_arithmetic hi]
  case readers =>
    intro i s t t' c z h h'
    obtain rfl := eq_effect_of_exec h
    obtain rfl := eq_effect_of_exec h'
    exact ⟨effect_with_flags i s c z, fun hi => effect_pc_with_flags hi s c z⟩

/-- Settles O19: the step's case split, and that no instruction clears or reads `halted`. -/
theorem haltedIsSetOnlyByHlt : Obligations.HaltedIsSetOnlyByHlt := by
  refine ⟨fun f s hf hs => stepWith_halted_iff hf hs, ?kept, ?readers, rfl, fun _ => rfl, ?loaded⟩
  case kept =>
    intro i s t h hs
    rw [eq_effect_of_exec h, effect_halted, hs, Bool.true_or]
  case readers =>
    intro i s t t' b h h'
    obtain rfl := eq_effect_of_exec h
    obtain rfl := eq_effect_of_exec h'
    exact effect_with_halted i s b
  case loaded =>
    intro image t h
    rw [eq_loadedState_of_load h]
    rfl

end Sys2Proof.Machine
end

section
/-! PROOFS. 20_memory.md, the statement about `MemWrite`: `memRead_memWrite` says all that a write does to what reads
answer. -/

namespace Sys2Proof.Machine

@[simp] theorem memRead_memWrite_same (addr : Byte) (v : Int) (s : State) :
    memRead (memWrite addr v s) addr = wrap8 v := by
  rw [memRead_memWrite, if_pos rfl]

theorem memRead_memWrite_of_ne {addr other : Byte} (h : other ≠ addr) (v : Int) (s : State) :
    memRead (memWrite addr v s) other = memRead s other := by
  rw [memRead_memWrite, if_neg h]

theorem memWrite_changes_memory_only (addr : Byte) (v : Int) (s : State) :
    ∃ m, memWrite addr v s = { s with mem := m } :=
  ⟨_, rfl⟩

/-- Settles O21: the written cell holds `wrap8 v`, and the write is an update of memory at that cell. -/
theorem memWriteSetsOneCell : Obligations.MemWriteSetsOneCell := by
  intro s addr v
  refine ⟨?_, fun other h => memRead_memWrite_of_ne h v s, memWrite_changes_memory_only addr v s⟩
  rw [memRead_memWrite_same]
  exact uint_wrap8 v

end Sys2Proof.Machine
end

section
/-! PROOFS. 30_encoding.md, the statement about the formats: a mnemonic's format says whether there is an operand byte,
so the opcode byte, which gives the mnemonic, gives the length. -/

namespace Sys2Proof

theorem Instr.operand_eq_none_iff (i : Instr) : i.operand = none ↔ formatOf i.mnemonic = .noOperand := by
  cases i <;> simp [Instr.operand, Instr.mnemonic, formatOf]

theorem encodeWith_of_no_operand {i : Instr} (h : i.operand = none) (f : OpcodeMap) :
    encodeWith f i = [opcodeByte f i.mnemonic] := by
  simp [encodeWith, h]

theorem encodeWith_of_operand {i : Instr} {x : Byte} (h : i.operand = some x) (f : OpcodeMap) :
    encodeWith f i = [opcodeByte f i.mnemonic, x] := by
  simp [encodeWith, h]

theorem length_encodeWith (f : OpcodeMap) (i : Instr) :
    (encodeWith f i).length = if formatOf i.mnemonic = .noOperand then 1 else 2 := by
  cases h : i.operand with
  | none => simp [encodeWith_of_no_operand h, i.operand_eq_none_iff.mp h]
  | some x =>
    have hformat : formatOf i.mnemonic ≠ .noOperand := by simp [← i.operand_eq_none_iff, h]
    simp [encodeWith_of_operand h, hformat]

theorem mnemonic_eq_of_head?_encodeWith_eq {f : OpcodeMap} (hf : f.wf = true) {i j : Instr}
    (h : (encodeWith f i).head? = (encodeWith f j).head?) : i.mnemonic = j.mnemonic :=
  opcodeByte_inj hf (Option.some.inj h)

/-- Settles O4: the format tables are finite facts, the bytes follow from whether there is an operand, and a bijective
map's first byte fixes the mnemonic, hence format and length. -/
theorem opcodeByteFixesFormatAndLength : Obligations.OpcodeByteFixesFormatAndLength := by
  refine ⟨by decide, by decide, by decide, fun f i => ⟨?noOperand, ?operand⟩, ?firstByte⟩
  case noOperand =>
    intro hformat
    exact encodeWith_of_no_operand (i.operand_eq_none_iff.mpr hformat) f
  case operand =>
    intro hformat
    obtain ⟨x, hx⟩ := Option.ne_none_iff_exists'.mp (mt i.operand_eq_none_iff.mp hformat)
    exact ⟨x, hx, encodeWith_of_operand hx f⟩
  case firstByte =>
    intro f hf i j hhead
    have hmnemonic : i.mnemonic = j.mnemonic := mnemonic_eq_of_head?_encodeWith_eq hf hhead
    rw [length_encodeWith, length_encodeWith, hmnemonic]
    exact ⟨rfl, rfl⟩

end Sys2Proof
end

section
/-! PROOFS. 42_load_store.md: first the step of a core that fetches a given instruction, then the statements about the
loads and stores, each read off from the instruction's `effect`. -/

namespace Sys2Proof.Machine

/-! ### The step of a core that fetches a given instruction -/

/-- Under a bijective map the bytes of `i` at the program counter decode to `i`. -/
theorem stepWith_of_fetches {f : OpcodeMap} (hf : f.wf = true) {s : State} {i : Instr} (h : s.fetches f i) :
    stepWith f s = .next (effect i (s.pastInstr i)) := by
  obtain ⟨hs, hopcode, hoperand⟩ := h
  have hm : mnemonicOf f (memRead s s.pc) = some i.mnemonic := by
    rw [hopcode, mnemonicOf_opcodeByte hf]
  have hi : buildInstr i.mnemonic (memRead s (s.pc + 1)) = i := by
    rcases hoperand with hnone | hsome
    · exact (buildInstr_of_no_operand hnone _).1
    · exact (buildInstr_of_operand hsome).1
  rw [stepWith_of_valid hs hm, hi]

theorem State.pastInstr_of_operand {i : Instr} {x : Byte} (h : i.operand = some x) (s : State) :
    s.pastInstr i = { s with pc := s.pc + 2 } := by
  simp [State.pastInstr, h]

/-- The case of formats M and I: the rule runs with `PC` at `p + 2`. -/
theorem stepWith_of_fetches_operand {f : OpcodeMap} (hf : f.wf = true) {s : State} {i : Instr} (h : s.fetches f i)
    {x : Byte} (hx : i.operand = some x) : stepWith f s = .next (effect i { s with pc := s.pc + 2 }) := by
  rw [stepWith_of_fetches hf h, State.pastInstr_of_operand hx]

/-! ### What a store leaves in memory -/

/-- `memRead_directStore`, of the memory `effect` writes out for the stores. -/
theorem memRead_with_write (s : State) (x v addr : Byte) :
    memRead { s with mem := Memory.write s.mem x.toNat v } addr =
      if addr = effectiveAddress x then v else memRead s addr := by
  rw [← directStore_eq, memRead_directStore, effectiveAddress]

/-! ### The statements -/

/-- Settles O26: `effect` of LDA, in `exec` and in the step that fetches it. -/
theorem ldaLoadsAFromMemory : Obligations.LdaLoadsAFromMemory :=
  fun x s => ⟨exec_eq (.lda x) s, fun _ hf h => stepWith_of_fetches_operand hf h rfl⟩

/-- Settles O27: `effect` of LDB, in `exec` and in the step that fetches it. -/
theorem ldbLoadsBFromMemory : Obligations.LdbLoadsBFromMemory :=
  fun x s => ⟨exec_eq (.ldb x) s, fun _ hf h => stepWith_of_fetches_operand hf h rfl⟩

/-- Settles O28: `effect` of LDIA, in `exec` and in the step that fetches it. -/
theorem ldiaLoadsAWithTheImmediate : Obligations.LdiaLoadsAWithTheImmediate :=
  fun x s => ⟨exec_eq (.ldia x) s, fun _ hf h => stepWith_of_fetches_operand hf h rfl⟩

/-- Settles O29: `effect` of LDIB, in `exec` and in the step that fetches it. -/
theorem ldibLoadsBWithTheImmediate : Obligations.LdibLoadsBWithTheImmediate :=
  fun x s => ⟨exec_eq (.ldib x) s, fun _ hf h => stepWith_of_fetches_operand hf h rfl⟩

/-- Settles O30: `effect` of STA writes `A` to the cell `x`, and what that memory answers is `memRead_with_write`. -/
theorem staStoresAToMemory : Obligations.StaStoresAToMemory := by
  intro x s
  have hread := memRead_with_write s x s.a
  exact ⟨⟨_, exec_eq (.sta x) s, hread⟩, fun f hf h => ⟨_, stepWith_of_fetches_operand hf h rfl, hread⟩⟩

/-- Settles O31: `effect` of STB writes `B` to the cell `x`, and what that memory answers is `memRead_with_write`. -/
theorem stbStoresBToMemory : Obligations.StbStoresBToMemory := by
  intro x s
  have hread := memRead_with_write s x s.b
  exact ⟨⟨_, exec_eq (.stb x) s, hread⟩, fun f hf h => ⟨_, stepWith_of_fetches_operand hf h rfl, hread⟩⟩

end Sys2Proof.Machine
end

section
/-! PROOFS. 43_arithmetic.md: first the ALU over the integers, then what the shared body of ADD, ADDI, SUB and SUBI leaves
in each of the fields it writes, then the statements. -/

namespace Sys2Proof.Machine

/-! ### The ALU (R150) -/

theorem aluAdd_result_toNat (a v : Byte) : (aluAdd a v).result.toNat = (a.toNat + v.toNat) % 256 := by
  rw [aluAdd, wrap8_add, BitVec.toNat_add]

theorem aluAdd_carry_iff (a v : Byte) : (aluAdd a v).carry = true ↔ a.toNat + v.toNat > 255 := by
  rw [aluAdd, decide_eq_true_iff, carry_add]

theorem aluSub_result_toNat (a v : Byte) :
    ((aluSub a v).result.toNat : Int) = ((a.toNat : Int) - (v.toNat : Int)) % 256 :=
  uint_wrap8 (uint a - uint v)

/-- The carry of a subtraction means "no borrow". -/
theorem aluSub_carry_iff_le (a v : Byte) : (aluSub a v).carry = true ↔ a.toNat ≥ v.toNat := by
  rw [aluSub, decide_eq_true_iff, carry_sub]

theorem aluSub_carry_iff (a v : Byte) : (aluSub a v).carry = true ↔ (a.toNat : Int) - (v.toNat : Int) > -1 :=
  decide_eq_true_iff

@[simp] theorem zeroFlag_iff (v : Byte) : zeroFlag v = true ↔ v = 0 :=
  decide_eq_true_iff

/-! ### The shared body of the four instructions (R151, R152), for any ALU operation -/

section
variable (alu : Byte → Byte → AluResult) (v : Byte) (s : State)

@[simp] theorem arithmetic_b : (arithmetic alu v s).b = v := by
  simp [arithmetic]

/-- `A` is read after `B` is written and before `A` is: it is the old one. -/
@[simp] theorem arithmetic_c : (arithmetic alu v s).c = (alu s.a v).carry := by
  simp [arithmetic]

@[simp] theorem arithmetic_a : (arithmetic alu v s).a = (alu s.a v).result := by
  simp [arithmetic]

/-- `Z` is of the new `A`. -/
theorem arithmetic_z_iff : (arithmetic alu v s).z = true ↔ (arithmetic alu v s).a = 0 := by
  simp [arithmetic]

theorem arithmetic_with_b (w : Byte) : arithmetic alu v { s with b := w } = arithmetic alu v s := rfl

end

/-- A sum of exactly 256 wraps to 0, with both flags set. -/
theorem arithmetic_add_of_sum_256 {v : Byte} {s : State} (h : s.a.toNat + v.toNat = 256) :
    (arithmetic aluAdd v s).a = 0 ∧ (arithmetic aluAdd v s).c = true ∧ (arithmetic aluAdd v s).z = true := by
  have ha : (arithmetic aluAdd v s).a = 0 := by
    rw [← BitVec.toNat_inj, arithmetic_a, aluAdd_result_toNat, h]
    rfl
  have hc : (arithmetic aluAdd v s).c = true := by
    rw [arithmetic_c, aluAdd_carry_iff, h]
    decide
  exact ⟨ha, hc, (arithmetic_z_iff aluAdd v s).mpr ha⟩

/-! ### `exec`, and the step that fetches the instruction -/

/-- What an instruction does to every state, `exec` does, and so does a step that fetches it, from `PC` at `p + 2`. -/
theorem exec_and_stepWith_of_effect {i : Instr} {x : Byte} (hx : i.operand = some x) {g : State → State}
    (hg : ∀ s, effect i s = g s) (s : State) :
    exec i s = .next (g s) ∧ ∀ f : OpcodeMap, f.wf = true → s.fetches f i →
      stepWith f s = .next (g { s with pc := s.pc + 2 }) := by
  refine ⟨by rw [exec_eq, hg], fun f hf h => ?_⟩
  rw [stepWith_of_fetches_operand hf h hx, hg]

/-- An instruction that runs the shared body leaves its operand value in `B`, and ends in the same state from any `B`
under which it has that value. -/
theorem exec_snapshots_operand {i : Instr} {alu : Byte → Byte → AluResult} {v w : Byte} {s : State}
    (hs : effect i s = arithmetic alu v s) (hw : effect i { s with b := w } = arithmetic alu v { s with b := w }) :
    ∃ t, exec i s = .next t ∧ t.b = v ∧ exec i { s with b := w } = .next t := by
  rw [arithmetic_with_b] at hw
  exact ⟨arithmetic alu v s, by rw [exec_eq, hs], arithmetic_b alu v s, by rw [exec_eq, hw]⟩

/-! ### The statements -/

/-- Settles O33: the four instructions run the shared body, which takes `C` from the old `A`, and `Z` from the new. -/
theorem flagOrderInArithmetic : Obligations.FlagOrderInArithmetic := by
  intro x v s
  refine ⟨fun i hi => ⟨arithmetic aluAdd v s, ?execAdd, ?carryAdd, ?resultAdd, arithmetic_z_iff aluAdd v s,
    arithmetic_add_of_sum_256⟩, fun i hi => ⟨arithmetic aluSub v s, ?execSub, ?carrySub, ?resultSub,
    arithmetic_z_iff aluSub v s⟩⟩
  case execAdd => obtain ⟨rfl, rfl⟩ | ⟨rfl, rfl⟩ := hi <;> exact exec_eq _ s
  case carryAdd => rw [arithmetic_c, aluAdd_carry_iff]
  case resultAdd => rw [arithmetic_a, aluAdd_result_toNat]
  case execSub => obtain ⟨rfl, rfl⟩ | ⟨rfl, rfl⟩ := hi <;> exact exec_eq _ s
  case carrySub => rw [arithmetic_c, aluSub_carry_iff]
  case resultSub => rw [arithmetic_a, aluSub_result_toNat]

/-- Settles O34: the shared body leaves the operand value in `B`, and the old `B` reaches nothing. -/
theorem arithmeticSnapshotsOperandIntoB : Obligations.ArithmeticSnapshotsOperandIntoB := by
  intro x w s
  exact ⟨exec_snapshots_operand (i := .add x) rfl rfl, exec_snapshots_operand (i := .addi x) rfl rfl,
    exec_snapshots_operand (i := .sub x) rfl rfl, exec_snapshots_operand (i := .subi x) rfl rfl⟩

/-- Settles O32: the ALU's results and carries, each read off the integers. -/
theorem aluResultsAndCarries : Obligations.AluResultsAndCarries :=
  fun a v => ⟨aluAdd_result_toNat a v, aluAdd_carry_iff a v, aluSub_result_toNat a v, aluSub_carry_iff a v,
    aluSub_carry_iff_le a v, (zeroFlag_iff a).trans BitVec.toNat_inj.symm⟩

/-- Settles O35: `arithmetic_add` of the content of cell `x`. -/
theorem addAddsMemoryToA : Obligations.AddAddsMemoryToA := by
  rintro x v s rfl
  exact exec_and_stepWith_of_effect (i := .add x) rfl (fun s => arithmetic_add (memRead s x) s) s

/-- Settles O36: `arithmetic_add` of the operand byte. -/
theorem addiAddsTheImmediateToA : Obligations.AddiAddsTheImmediateToA :=
  fun x s => exec_and_stepWith_of_effect (i := .addi x) rfl (arithmetic_add x) s

/-- Settles O37: `arithmetic_sub` of the content of cell `x`. -/
theorem subSubtractsMemoryFromA : Obligations.SubSubtractsMemoryFromA := by
  rintro x v s rfl
  exact exec_and_stepWith_of_effect (i := .sub x) rfl (fun s => arithmetic_sub (memRead s x) s) s

/-- Settles O38: `arithmetic_sub` of the operand byte. -/
theorem subiSubtractsTheImmediateFromA : Obligations.SubiSubtractsTheImmediateFromA :=
  fun x s => exec_and_stepWith_of_effect (i := .subi x) rfl (arithmetic_sub x) s

end Sys2Proof.Machine
end

section
/-! PROOFS. 45_control.md: first what the four jumps have in common and what a step to the same state makes of a run, then
the statements. -/

namespace Sys2Proof.Machine

/-! ### What every jump does (R180) -/

/-- Every jump is the model's `jumpIf` to its operand byte, under a condition that holds always for JMP. -/
theorem effect_eq_jumpIf_of_jump {i : Instr} (h : i.mnemonic ∈ [Mnemonic.jmp, .jmpc, .jmpnc, .jmpz]) (s : State) :
    ∃ x taken, i.operand = some x ∧ effect i s = jumpIf taken x s ∧ (i.mnemonic = .jmp → taken = true) := by
  cases i with
  | jmp x => exact ⟨x, true, rfl, (jumpIf_eq true x s).symm, fun _ => rfl⟩
  | jmpc x => exact ⟨x, s.c, rfl, (jumpIf_eq s.c x s).symm, nofun⟩
  | jmpnc x => exact ⟨x, !s.c, rfl, (jumpIf_eq (!s.c) x s).symm, nofun⟩
  | jmpz x => exact ⟨x, s.z, rfl, (jumpIf_eq s.z x s).symm, nofun⟩
  | _ => simp [Instr.mnemonic] at h

/-- JMPNC's condition, with `C` in place of its negation. -/
theorem effect_jmpnc (x : Byte) (s : State) :
    effect (.jmpnc x) s = { s with pc := if s.c = true then s.pc else x } := by
  cases hc : s.c <;> simp [effect, hc]

/-! ### A jump to its own address (R180) -/

/-- The state from which a step fetches JMP to its own address is a fixed point of the step. -/
theorem stepWith_of_fetches_jmp_self {f : OpcodeMap} (hf : f.wf = true) {s : State} (h : s.fetches f (.jmp s.pc)) :
    stepWith f s = .next s :=
  stepWith_of_fetches_operand hf h rfl

/-- Any number of steps from a fixed point of a machine's step ends in it. -/
theorem run_eq_next_of_step_eq_next {M : Host.Core} {s : M.State} (h : M.step s = .next s) (k : Nat) :
    M.run k s = .next s := by
  induction k with
  | zero => rfl
  | succ k ih => rw [Host.Core.run, h]; exact ih

/-! ### The statements -/

/-- Settles O48: `jumpIf` writes `PC` alone, and a JMP to its own address is a fixed point of the step. -/
theorem jumpsWriteOnlyPc : Obligations.JumpsWriteOnlyPc := by
  refine ⟨?onlyPc, fun f s hf h => stepWith_of_fetches_jmp_self hf h,
    fun s k h => run_eq_next_of_step_eq_next (stepWith_of_fetches_jmp_self opcodeOf_wf h) k⟩
  case onlyPc =>
    intro f i s hf hi h
    obtain ⟨x, taken, hx, heffect, hjmp⟩ := effect_eq_jumpIf_of_jump hi { s with pc := s.pc + 2 }
    rw [jumpIf_eq] at heffect
    refine ⟨{ s with pc := if taken then x else s.pc + 2 }, ?_, rfl, ?_⟩
    · rw [stepWith_of_fetches_operand hf h hx, heffect]
    · cases taken with
      | true => exact .inl hx
      | false => exact .inr ⟨fun hm => Bool.false_ne_true (hjmp hm), rfl⟩

/-- Settles O44: `effect` of JMP, in `exec` and in the step that fetches it. -/
theorem jmpSetsPc : Obligations.JmpSetsPc :=
  fun x s => ⟨exec_eq (.jmp x) s, fun _ hf h => stepWith_of_fetches_operand hf h rfl⟩

/-- Settles O45: `effect` of JMPC, in `exec` and in the step that fetches it. -/
theorem jmpcJumpsIfCarry : Obligations.JmpcJumpsIfCarry :=
  fun x s => ⟨exec_eq (.jmpc x) s, fun _ hf h => stepWith_of_fetches_operand hf h rfl⟩

/-- Settles O46: `effect_jmpnc`, in `exec` and in the step that fetches it. -/
theorem jmpncJumpsIfNotCarry : Obligations.JmpncJumpsIfNotCarry :=
  fun x s => exec_and_stepWith_of_effect (i := .jmpnc x) rfl (effect_jmpnc x) s

/-- Settles O47: `effect` of JMPZ, in `exec` and in the step that fetches it. -/
theorem jmpzJumpsIfZero : Obligations.JmpzJumpsIfZero :=
  fun x s => ⟨exec_eq (.jmpz x) s, fun _ hf h => stepWith_of_fetches_operand hf h rfl⟩

end Sys2Proof.Machine
end

section
/-! PROOFS. 30_encoding.md, the decoder: first what it answers, one lemma per case and one inversion lemma, then the
statements about decoding and encoding. -/

namespace Sys2Proof

/-! ### The decoder, case by case -/

theorem decodeWith_of_invalid {f : OpcodeMap} {op : Byte} (h : mnemonicOf f op = none) (rest : List Byte) :
    decodeWith f (op :: rest) = .refused (.invalidOpcode op) := by
  simp [decodeWith, decodeFrom, h]

theorem decodeWith_of_no_operand {f : OpcodeMap} {op : Byte} {m : Mnemonic} (h : mnemonicOf f op = some m)
    (hm : hasOperand m = false) (rest : List Byte) : decodeWith f (op :: rest) = .ok (buildInstr m 0) rest := by
  simp [decodeWith, decodeFrom, h, hm]

theorem decodeWith_of_operand {f : OpcodeMap} {op : Byte} {m : Mnemonic} (h : mnemonicOf f op = some m)
    (hm : hasOperand m = true) (x : Byte) (rest : List Byte) :
    decodeWith f (op :: x :: rest) = .ok (buildInstr m x) rest := by
  simp [decodeWith, decodeFrom, h, hm]

/-- Everything bytes that decode can be: an opcode byte alone, or an opcode byte and an operand byte, before
the rest. -/
theorem decodeWith_ok_cases {f : OpcodeMap} {bytes : List Byte} {i : Instr} {rest : List Byte}
    (h : decodeWith f bytes = .ok i rest) :
    ∃ m, (hasOperand m = false ∧ bytes = opcodeByte f m :: rest ∧ i = buildInstr m 0) ∨
      ∃ x, hasOperand m = true ∧ bytes = opcodeByte f m :: x :: rest ∧ i = buildInstr m x := by
  cases bytes with
  | nil => cases h
  | cons op tail =>
    cases hm : mnemonicOf f op with
    | none =>
      rw [decodeWith_of_invalid hm] at h
      cases h
    | some m =>
      obtain rfl := opcodeByte_of_mnemonicOf hm
      refine ⟨m, ?_⟩
      cases hop : hasOperand m with
      | false =>
        rw [decodeWith_of_no_operand hm hop] at h
        cases h
        exact .inl ⟨rfl, rfl, rfl⟩
      | true =>
        cases tail with
        | nil => simp [decodeWith, decodeFrom, hm, hop] at h
        | cons x tail =>
          rw [decodeWith_of_operand hm hop] at h
          cases h
          exact .inr ⟨x, rfl, rfl, rfl⟩

theorem encodeWith_buildInstr (f : OpcodeMap) (m : Mnemonic) (x : Byte) :
    encodeWith f (buildInstr m x) = opcodeByte f m :: if hasOperand m then [x] else [] := by
  cases h : hasOperand m <;> simp [encodeWith, h]

theorem decodeWith_encodeWith {f : OpcodeMap} (hf : f.wf = true) (i : Instr) (rest : List Byte) :
    decodeWith f (encodeWith f i ++ rest) = .ok i rest := by
  have hm := mnemonicOf_opcodeByte hf i.mnemonic
  cases hx : i.operand with
  | none =>
    obtain ⟨hi, hop⟩ := buildInstr_of_no_operand hx 0
    rw [encodeWith_of_no_operand hx, List.singleton_append, decodeWith_of_no_operand hm hop, hi]
  | some x =>
    obtain ⟨hi, hop⟩ := buildInstr_of_operand hx
    rw [encodeWith_of_operand hx, List.cons_append, List.singleton_append, decodeWith_of_operand hm hop, hi]

theorem Instr.wf_eq_true (i : Instr) : i.wf = true := by
  cases i <;> rfl

/-! ### The valid opcode bytes -/

/-- A bijective map's 17 numbers are all the numbers below 17. -/
theorem OpcodeMap.surjective_of_wf {f : OpcodeMap} (hf : f.wf = true) : Function.Surjective f := by
  intro n
  have hnodup : (Mnemonic.all.map f).Nodup := by simpa [OpcodeMap.wf] using hf
  have hall : (Mnemonic.all.map f).toFinset = Finset.univ := by
    apply Finset.eq_univ_of_card
    rw [List.toFinset_card_of_nodup hnodup, List.length_map]
    rfl
  have hn : n ∈ Mnemonic.all.map f := by
    rw [← List.mem_toFinset, hall]
    exact Finset.mem_univ n
  obtain ⟨m, -, hm⟩ := List.mem_map.mp hn
  exact ⟨m, hm⟩

theorem exists_opcodeByte_of_le {f : OpcodeMap} (hf : f.wf = true) {op : Byte} (h : op.toNat ≤ 16) :
    ∃ m, opcodeByte f m = op := by
  obtain ⟨m, hm⟩ := OpcodeMap.surjective_of_wf hf ⟨op.toNat, Nat.lt_succ_of_le h⟩
  refine ⟨m, BitVec.eq_of_toNat_eq ?_⟩
  rw [opcodeByte_toNat, hm]

/-- Under a bijective map the invalid opcode bytes are those above 16. -/
theorem mnemonicOf_eq_none_iff {f : OpcodeMap} (hf : f.wf = true) (op : Byte) :
    mnemonicOf f op = none ↔ 16 < op.toNat := by
  refine ⟨fun hnone => ?_, Machine.mnemonicOf_eq_none_of_gt⟩
  by_contra hle
  obtain ⟨m, rfl⟩ := exists_opcodeByte_of_le hf (Nat.le_of_not_lt hle)
  rw [mnemonicOf_opcodeByte hf] at hnone
  cases hnone

/-- A valid opcode byte before any operand byte decodes to an instruction of its mnemonic with that operand. -/
theorem decodeWith_of_opcodeByte {f : OpcodeMap} (hf : f.wf = true) (m : Mnemonic) (x : Byte) (rest : List Byte) :
    ∃ i r, decodeWith f (opcodeByte f m :: x :: rest) = .ok i r ∧ i.mnemonic = m ∧
      (formatOf m = .noOperand ∨ i.operand = some x) := by
  have hm := mnemonicOf_opcodeByte hf m
  cases hop : hasOperand m with
  | false =>
    have hnone : (buildInstr m 0).operand = none := by simp [hop]
    have hformat := (buildInstr m 0).operand_eq_none_iff.mp hnone
    rw [buildInstr_mnemonic] at hformat
    exact ⟨_, _, decodeWith_of_no_operand hm hop _, buildInstr_mnemonic m 0, .inl hformat⟩
  | true => exact ⟨_, _, decodeWith_of_operand hm hop x rest, buildInstr_mnemonic m x, .inr (by simp [hop])⟩

/-! ### The statements -/

/-- Settles O2: the opcode byte gives back the mnemonic, the mnemonic says whether an operand byte follows, and both give
back the instruction. -/
theorem decodeOfEncodeIsTheInstruction : Obligations.DecodeOfEncodeIsTheInstruction :=
  fun _ hf i rest => ⟨i.wf_eq_true, decodeWith_encodeWith hf i rest⟩

/-- Settles O3: by the two forms of bytes that decode. -/
theorem decodedBytesAreTheEncoding : Obligations.DecodedBytesAreTheEncoding := by
  intro f bytes i rest h
  obtain ⟨m, ⟨hm, rfl, rfl⟩ | ⟨x, hm, rfl, rfl⟩⟩ := decodeWith_ok_cases h
  · simp [encodeWith_buildInstr, hm]
  · simp [encodeWith_buildInstr, hm]

/-- Settles O1: each row is an instruction's encoding under decision D1's map, so `decodeWith_encodeWith` decodes it. -/
theorem opcodeTableRowsDecode : Obligations.OpcodeTableRowsDecode := by
  intro x rest
  have hrow (i : Instr) : decode (encode i ++ rest) = .ok i rest := decodeWith_encodeWith opcodeOf_wf i rest
  exact ⟨hrow .hlt, hrow (.lda x), hrow (.ldb x), hrow (.ldia x), hrow (.ldib x), hrow (.sta x), hrow (.stb x),
    hrow (.add x), hrow (.addi x), hrow (.sub x), hrow (.subi x), hrow .outa, hrow (.outi x), hrow (.jmp x),
    hrow (.jmpc x), hrow (.jmpnc x), hrow (.jmpz x)⟩

end Sys2Proof
end

section
/-! PROOFS. 40_execution_cycle.md and 60_exceptions.md: first which cores stop, what a step does to the status, what the run
loop does, then the statements about the step. -/

namespace Sys2Proof.Machine

/-! ### Running and stopped cores (R100) and the bytes a step fetches -/

theorem State.running_iff (s : State) : s.running = true ↔ s.halted = false ∧ s.fault = false := by
  simp [State.running]

theorem State.not_faulted_of_running {s : State} (h : s.running = true) : s.fault = false :=
  (s.running_iff.mp h).2

theorem stepWith_of_fault (f : OpcodeMap) {s : State} (h : s.fault = true) : stepWith f s = .fault .coreFaulted := by
  simp [stepWith, stoppedCore, h]

theorem stepWith_of_halted (f : OpcodeMap) {s : State} (hh : s.halted = true) (hf : s.fault = false) :
    stepWith f s = .refused .coreHalted := by
  simp [stepWith, stoppedCore, hh, hf]

/-- A step answers a next state exactly when the core is running. -/
theorem exists_stepWith_eq_next_iff (f : OpcodeMap) (s : State) :
    (∃ t, stepWith f s = .next t) ↔ s.running = true := by
  refine ⟨fun ⟨t, h⟩ => (step_cases h).1, fun hs => ?_⟩
  cases hm : mnemonicOf f (memRead s s.pc) with
  | none => exact ⟨_, stepWith_of_invalid hs hm⟩
  | some m => exact ⟨_, stepWith_of_valid hs hm⟩

/-- Bytes that decode are the instruction's encoding: where they stand at the program counter, so does it. -/
theorem holdsAtPc_of_decode {s : State} {i : Instr} {rest : List Byte}
    (h : decode [memRead s s.pc, memRead s (s.pc + 1)] = .ok i rest) : s.holdsAtPc opcodeOf i := by
  obtain ⟨m, ⟨hm, hbytes, rfl⟩ | ⟨x, hm, hbytes, rfl⟩⟩ := decodeWith_ok_cases h
  · obtain ⟨hopcode, -⟩ := List.cons.inj hbytes
    exact ⟨by rw [hopcode, buildInstr_mnemonic], .inl (by simp [hm])⟩
  · obtain ⟨hopcode, htail⟩ := List.cons.inj hbytes
    obtain ⟨hoperand, -⟩ := List.cons.inj htail
    exact ⟨by rw [hopcode, buildInstr_mnemonic], .inr (by rw [buildInstr_operand, if_pos hm, hoperand])⟩

/-! ### The status fields: `pastInstr` leaves them, an instruction leaves the fault record -/

section
variable (i : Instr) (s : State)

@[simp] theorem pastInstr_halted : (s.pastInstr i).halted = s.halted := rfl
@[simp] theorem pastInstr_fault : (s.pastInstr i).fault = s.fault := rfl
@[simp] theorem pastInstr_faultOpcode : (s.pastInstr i).faultOpcode = s.faultOpcode := rfl
@[simp] theorem pastInstr_faultPc : (s.pastInstr i).faultPc = s.faultPc := rfl

@[simp] theorem effect_fault : (effect i s).fault = s.fault := by cases i <;> rfl
@[simp] theorem effect_faultOpcode : (effect i s).faultOpcode = s.faultOpcode := by cases i <;> rfl
@[simp] theorem effect_faultPc : (effect i s).faultPc = s.faultPc := by cases i <;> rfl

end

/-- Under a bijective map a step ends faulted exactly on an opcode byte above 16. -/
theorem fault_iff_of_stepWith {f : OpcodeMap} (hf : f.wf = true) {s t : State} (h : stepWith f s = .next t) :
    t.fault = true ↔ 16 < (memRead s s.pc).toNat := by
  rw [← mnemonicOf_eq_none_iff hf]
  obtain ⟨hs, ⟨hm, rfl⟩ | ⟨m, hm, rfl⟩⟩ := step_cases h
  · simp [hm]
  · simp [hm, State.not_faulted_of_running hs]

theorem halted_iff_of_stepWith {f : OpcodeMap} (hf : f.wf = true) {s t : State} (h : stepWith f s = .next t) :
    t.halted = true ↔ memRead s s.pc = opcodeByte f .hlt := by
  obtain ⟨t', h', hiff⟩ := stepWith_halted_iff hf (step_cases h).1
  rw [h', Host.Outcome.next.injEq] at h
  exact h ▸ hiff

/-- A step sets one of `halted` and `fault` at most, and a running core had neither. -/
theorem not_halted_and_fault_of_stepWith {f : OpcodeMap} {s t : State} (h : stepWith f s = .next t) :
    ¬ (t.halted = true ∧ t.fault = true) := by
  obtain ⟨hs, ⟨-, rfl⟩ | ⟨m, -, rfl⟩⟩ := step_cases h
  · simp [State.not_halted_of_running hs]
  · simp [State.not_faulted_of_running hs]

/-! ### The outcome (R106) -/

theorem stepResultWith_of_next {f : OpcodeMap} {s t : State} (h : stepWith f s = .next t) :
    stepResultWith f s = some (resultOf t) := by
  simp [stepResultWith, h]

theorem stepResultWith_of_fault (f : OpcodeMap) {s : State} (h : s.fault = true) : stepResultWith f s = none := by
  simp [stepResultWith, stepWith_of_fault f h]

theorem stepResultWith_of_halted (f : OpcodeMap) {s : State} (hh : s.halted = true) (hf : s.fault = false) :
    stepResultWith f s = none := by
  simp [stepResultWith, stepWith_of_halted f hh hf]

theorem resultOf_eq_faulted_iff (t : State) : resultOf t = .faulted ↔ t.fault = true := by
  cases hf : t.fault <;> cases hh : t.halted <;> simp [resultOf, hf, hh]

theorem resultOf_eq_halted_iff (t : State) : resultOf t = .halted ↔ t.halted = true ∧ t.fault = false := by
  cases hf : t.fault <;> cases hh : t.halted <;> simp [resultOf, hf, hh]

theorem resultOf_eq_running_iff (t : State) : resultOf t = .running ↔ t.running = true := by
  cases hf : t.fault <;> cases hh : t.halted <;> simp [resultOf, State.running, hf, hh]

/-! ### The run loop (R108) -/

theorem runLoop_succ_of_next {f : OpcodeMap} {s t : State} (h : stepWith f s = .next t) (k : Nat) :
    runLoop f (k + 1) s = runLoop f k t := by
  simp [runLoop, h]

theorem runLoop_of_stopped (f : OpcodeMap) (k : Nat) {s : State} (h : s.halted = true ∨ s.fault = true) :
    runLoop f k s = s := by
  cases k with
  | zero => rfl
  | succ k =>
    cases hf : s.fault with
    | true => simp [runLoop, stepWith_of_fault f hf]
    | false =>
      have hh : s.halted = true := by simpa [hf] using h
      simp [runLoop, stepWith_of_halted f hh hf]

theorem runLoop_add (f : OpcodeMap) (m n : Nat) (s : State) :
    runLoop f (m + n) s = runLoop f n (runLoop f m s) := by
  induction m generalizing s with
  | zero => rw [Nat.zero_add]; rfl
  | succ m ih =>
    by_cases hs : s.running = true
    · obtain ⟨t, ht⟩ := (exists_stepWith_eq_next_iff f s).mpr hs
      rw [Nat.succ_add, runLoop_succ_of_next ht, runLoop_succ_of_next ht, ih]
    · have hstopped : s.halted = true ∨ s.fault = true := by
        simpa [State.running, Classical.or_iff_not_imp_left] using hs
      rw [runLoop_of_stopped f _ hstopped, runLoop_of_stopped f _ hstopped, runLoop_of_stopped f _ hstopped]

/-! ### The statements -/

/-- Settles O5: under a bijective map the valid bytes are those up to 16, in the decoder and in the step. -/
theorem opcodeBytesAbove16AreInvalid : Obligations.OpcodeBytesAbove16AreInvalid := by
  refine fun f hf => ⟨fun op rest => ⟨?invalid, ?valid⟩, fun s hs => ⟨?faulted, ?faults⟩⟩
  case invalid =>
    intro hop
    exact decodeWith_of_invalid (mnemonicOf_eq_none_of_gt hop) rest
  case valid =>
    intro hop
    obtain ⟨m, rfl⟩ := exists_opcodeByte_of_le hf hop
    exact ⟨m, rfl, fun x => decodeWith_of_opcodeByte hf m x rest⟩
  case faulted =>
    rintro ⟨t, ht, hfault⟩
    exact (fault_iff_of_stepWith hf ht).mp hfault
  case faults =>
    intro hop
    obtain ⟨t, ht⟩ := (exists_stepWith_eq_next_iff f s).mpr hs
    exact ⟨t, ht, (fault_iff_of_stepWith hf ht).mpr hop⟩

/-- Settles O9: `effect` is every instruction's next state, and a step goes through whenever the core is running. -/
theorem everyRunningCoreSteps : Obligations.EveryRunningCoreSteps :=
  ⟨fun i s => ⟨_, exec_eq i s⟩, fun f s => (exists_stepWith_eq_next_iff f s).trans s.running_iff⟩

/-- Settles O10: the opcode byte decides `fault` and `halted` after the step, and they decide the outcome. -/
theorem stepReportsItsOutcome : Obligations.StepReportsItsOutcome := by
  intro f s hf hs
  obtain ⟨t, ht⟩ := (exists_stepWith_eq_next_iff f s).mpr hs
  simp only [stepResultWith_of_next ht, resultOf, fault_iff_of_stepWith hf ht, halted_iff_of_stepWith hf ht]

/-- Settles O11: the outcome is read off `halted` and `fault`, of which a step sets one at most. -/
theorem stepEndsARunAsItReports : Obligations.StepEndsARunAsItReports := by
  intro f s t h
  have hnot := not_halted_and_fault_of_stepWith h
  simp only [stepResultWith_of_next h, Option.some.injEq, State.succeeded, State.failed]
  refine ⟨?halted, (resultOf_eq_faulted_iff t).symm, hnot, ?running⟩
  case halted =>
    rw [resultOf_eq_halted_iff]
    exact ⟨fun hh => ⟨hh, Bool.eq_false_iff.mpr fun hf => hnot ⟨hh, hf⟩⟩, And.left⟩
  case running => exact (resultOf_eq_running_iff t).trans (exists_stepWith_eq_next_iff f t).symm

/-- Settles O12: by induction on the steps before the stop; a stopped core's state is a fixed point of the loop. -/
theorem runResumesWhereItStopped : Obligations.RunResumesWhereItStopped :=
  fun f m n s => ⟨runLoop_add f m n s, runLoop_of_stopped f n⟩

/-- Settles O6: where bytes decode to an instruction, a step fetches it. -/
theorem stepRunsDecodedInstruction : Obligations.StepRunsDecodedInstruction := by
  intro s i hs
  have hfetched (f : OpcodeMap) (hf : f.wf = true) (h : s.fetches f i) : stepWith f s = exec i (s.pastInstr i) := by
    rw [stepWith_of_fetches hf h, exec_eq]
  exact ⟨fun rest h => hfetched opcodeOf opcodeOf_wf ⟨hs, holdsAtPc_of_decode h⟩, hfetched⟩

/-- Settles O7: the step that raises the exception, its next state written out. -/
theorem invalidOpcodeTakesTheException : Obligations.InvalidOpcodeTakesTheException :=
  fun f _ h => stepWith_of_fetchesInvalid f h

/-- Settles O8: the step's two answers for a stopped core, `fault` looked at first. -/
theorem stoppedCoreTakesNoStep : Obligations.StoppedCoreTakesNoStep :=
  fun f _ => ⟨fun hf => ⟨stepWith_of_fault f hf, stepResultWith_of_fault f hf⟩,
    fun hh hf => ⟨stepWith_of_halted f hh hf, stepResultWith_of_halted f hh hf⟩⟩

end Sys2Proof.Machine
end

section
/-! PROOFS. The invariant, and reset and load: what an instruction does to memory, which states meet the invariant, what an
image leaves in memory, then the statements about the invariant and about `load`. -/

namespace Sys2Proof.Machine

/-! ### What an instruction does to memory -/

@[simp] theorem dataAccess_pastInstr (i j : Instr) (s : State) : dataAccess i (s.pastInstr j) = dataAccess i s := by
  cases i <;> rfl

/-- Everything an instruction can do to memory: STA and STB write the one cell of their data access; the others, which
have no write among their accesses, leave memory as it is. -/
theorem effect_mem_cases (i : Instr) (s : State) :
    ((effect i s).mem = s.mem ∧ ∀ addr v, .write addr v ∉ dataAccess i s) ∨
      ∃ x v, (i = .sta x ∨ i = .stb x) ∧ dataAccess i s = [.write x v] ∧
        (effect i s).mem = Memory.write s.mem x.toNat v := by
  cases i with
  | sta x => exact .inr ⟨x, s.a, .inl rfl, rfl, rfl⟩
  | stb x => exact .inr ⟨x, s.b, .inr rfl, rfl, rfl⟩
  | _ => exact .inl ⟨rfl, by simp [dataAccess]⟩

theorem effect_mem_wf {s : State} (h : Memory.wf s.mem = true) (i : Instr) : Memory.wf (effect i s).mem = true := by
  obtain ⟨hmem, -⟩ | ⟨x, v, -, -, hmem⟩ := effect_mem_cases i s
  · rw [hmem]; exact h
  · rw [hmem]; exact Memory.wf_write h x.isLt v

/-! ### States that meet the invariant -/

/-- Nothing but the memory's form is asked of a core that has not stopped and whose fault record is as at reset. -/
theorem State.inv_of_no_status {s : State} (hmem : Memory.wf s.mem = true) (hh : s.halted = false)
    (hf : s.fault = false) (hrecord : s.faultOpcode = 0 ∧ s.faultPc = 0) (f : OpcodeMap) : s.Inv f where
  memCanonical := hmem
  notBoth := by simp [hh]
  haltedPastHlt := by simp [hh]
  faultRecord := by simp [hf]
  noFaultRecord := fun _ => hrecord

/-- The exception leaves a core that stands past the byte its record names. -/
theorem raiseInvalidOpcode_inv {f : OpcodeMap} {s : State} (h : s.Inv f) (hh : s.halted = false)
    (hop : 16 < (memRead s s.pc).toNat) :
    (raiseInvalidOpcode ⟨memRead s s.pc, s.pc⟩ { s with pc := s.pc + 1 }).Inv f where
  memCanonical := h.memCanonical
  notBoth := by simp [hh]
  haltedPastHlt := by simp [hh]
  faultRecord := fun _ => ⟨hop, rfl, rfl⟩
  noFaultRecord := by simp

/-- HLT leaves a core that stands past the HLT byte. -/
theorem effect_hlt_inv {f : OpcodeMap} {s : State} (h : s.Inv f) (hf : s.fault = false)
    (hop : memRead s s.pc = opcodeByte f .hlt) : (effect .hlt (s.pastInstr .hlt)).Inv f where
  memCanonical := h.memCanonical
  notBoth := by simp [hf]
  haltedPastHlt := fun _ => by
    have hpc : s.pc + 1 - 1 = s.pc := by bv_omega
    exact (congrArg (memRead s) hpc).trans hop
  faultRecord := by simp [hf]
  noFaultRecord := fun _ => h.noFaultRecord hf

/-- Any other instruction leaves a core that runs on, with the fault record as it was. -/
theorem effect_inv_of_not_hlt {f : OpcodeMap} {s : State} (h : s.Inv f) (hs : s.running = true) {i : Instr}
    (hi : i.mnemonic ≠ .hlt) : (effect i (s.pastInstr i)).Inv f := by
  have hf : s.fault = false := State.not_faulted_of_running hs
  refine State.inv_of_no_status (effect_mem_wf (s := s.pastInstr i) h.memCanonical i) ?_ ?_ ?_ f
  · simp [effect_halted, State.not_halted_of_running hs, hi]
  · simpa using hf
  · simpa using h.noFaultRecord hf

theorem stepWith_keeps_inv {f : OpcodeMap} (hf : f.wf = true) {s t : State} (h : s.Inv f)
    (hstep : stepWith f s = .next t) : t.Inv f := by
  obtain ⟨hs, ⟨hm, rfl⟩ | ⟨m, hm, rfl⟩⟩ := step_cases hstep
  · exact raiseInvalidOpcode_inv h (State.not_halted_of_running hs) ((mnemonicOf_eq_none_iff hf _).mp hm)
  · by_cases hhlt : m = .hlt
    · subst hhlt
      exact effect_hlt_inv h (State.not_faulted_of_running hs) (opcodeByte_of_mnemonicOf hm).symm
    · exact effect_inv_of_not_hlt h hs (by rwa [buildInstr_mnemonic])

/-! ### Images (R205, R240, R241) -/

theorem imageValueOk_iff (v : Int) : imageValueOk v = true ↔ 0 ≤ v ∧ v ≤ 255 :=
  decide_eq_true_iff

theorem all_imageValueOk_iff (image : List Int) : image.all imageValueOk = true ↔ ∀ v ∈ image, 0 ≤ v ∧ v ≤ 255 := by
  simp only [List.all_eq_true, imageValueOk_iff]

theorem imageWf_iff (image : List Int) :
    imageWf image = true ↔ image.length ≤ 256 ∧ ∀ v ∈ image, 0 ≤ v ∧ v ≤ 255 := by
  rw [imageWf, Bool.and_eq_true, all_imageValueOk_iff, decide_eq_true_iff, Config.maxImageLength]

/-- A cell outside the image keeps its content. -/
theorem read_placeImage_of_outside {k addr : Nat} {image : List Int} (h : addr < k ∨ k + image.length ≤ addr)
    (m : Memory) : Memory.read (placeImage k image m) addr = Memory.read m addr := by
  induction image generalizing k m with
  | nil => rfl
  | cons v image ih =>
    rw [List.length_cons] at h
    rw [placeImage, ih (by omega), Memory.read_write, if_neg (by omega)]

theorem read_placeImage (k j : Nat) (image : List Int) (h : j < image.length) (m : Memory) :
    Memory.read (placeImage k image m) (k + j) = wrap8 image[j] := by
  induction image generalizing k j m with
  | nil => cases h
  | cons v image ih =>
    cases j with
    | zero =>
      rw [Nat.add_zero, placeImage, read_placeImage_of_outside (by omega), Memory.read_write, if_pos rfl,
        List.getElem_cons_zero]
    | succ j =>
      have hj : j < image.length := by simpa using h
      have hcell : k + (j + 1) = k + 1 + j := by omega
      rw [placeImage, hcell, ih (k + 1) j hj, List.getElem_cons_succ]

theorem placeImage_wf {k : Nat} {image : List Int} (hlen : k + image.length ≤ Config.memSize) {m : Memory}
    (hm : Memory.wf m = true) : Memory.wf (placeImage k image m) = true := by
  induction image generalizing k m with
  | nil => exact hm
  | cons v image ih =>
    rw [List.length_cons] at hlen
    exact ih (by omega) (Memory.wf_write hm (by omega) _)

/-! ### Loads -/

theorem load_of_wf {image : List Int} (h : imageWf image = true) : load image = .ok (loadedState image) :=
  if_pos h

theorem load_of_not_wf {image : List Int} (h : ¬ imageWf image = true) : load image = .failed (loadError image) :=
  if_neg h

theorem hostLoad_of_ok {image : List Int} {s : State} (h : load image = .ok s) (existing : Option State) :
    hostLoad image existing = (.ok s, some s) := by
  simp [hostLoad, h]

theorem hostLoad_of_failed {image : List Int} {e : LoadError} (h : load image = .failed e) (existing : Option State) :
    hostLoad image existing = (.failed e, existing) := by
  simp [hostLoad, h]

theorem imageWf_of_load {image : List Int} {t : State} (h : load image = .ok t) : imageWf image = true := by
  by_contra hwf
  rw [load_of_not_wf hwf] at h
  cases h

theorem loadError_of_values_ok {image : List Int} (hvalues : ∀ v ∈ image, 0 ≤ v ∧ v ≤ 255)
    (hlen : 256 < image.length) : loadError image = .tooLarge := by
  rw [loadError, Config.maxImageLength, if_pos hlen, if_pos ((all_imageValueOk_iff image).mpr hvalues)]

theorem loadError_of_length_ok {image : List Int} (h : image.length ≤ 256) : loadError image = .badValue :=
  if_neg (Nat.not_lt.mpr h)

theorem memRead_ofNat {k : Nat} (h : k < 256) (s : State) : memRead s (BitVec.ofNat 8 k) = Memory.read s.mem k := by
  rw [memRead, BitVec.toNat_ofNat, Nat.mod_eq_of_lt h]

theorem memRead_loadedState {image : List Int} (hlen : image.length ≤ 256) {k : Nat} (h : k < image.length) :
    memRead (loadedState image) (BitVec.ofNat 8 k) = wrap8 image[k] := by
  rw [memRead_ofNat (by omega), ← read_placeImage 0 k image h [], Nat.zero_add, loadedState]

theorem memRead_loadedState_of_ge {image : List Int} {k : Nat} (h : image.length ≤ k) (hk : k < 256) :
    memRead (loadedState image) (BitVec.ofNat 8 k) = 0 := by
  rw [memRead_ofNat hk, loadedState, read_placeImage_of_outside (by omega), Memory.read_nil]

/-! ### The statements -/

/-- Settles O54: the exception, HLT and any other instruction each leave a state that meets the invariant. -/
theorem everyStepKeepsTheInvariant : Obligations.EveryStepKeepsTheInvariant :=
  ⟨fun _ hf _ _ h hstep => stepWith_keeps_inv hf h hstep, fun _ _ h hstep => stepWith_keeps_inv opcodeOf_wf h hstep⟩

/-- Settles O53: an image's cells are 256 at most, so placing it keeps the canonical form, and all else is reset. -/
theorem invariantHoldsAfterLoad : Obligations.InvariantHoldsAfterLoad := by
  intro f image t h
  obtain ⟨hlen, -⟩ := (imageWf_iff image).mp (imageWf_of_load h)
  obtain rfl := eq_loadedState_of_load h
  have hmem : Memory.wf (loadedState image).mem = true := placeImage_wf (by rwa [Nat.zero_add]) reset_mem_wf
  exact ⟨State.inv_of_no_status hmem rfl rfl ⟨rfl, rfl⟩ f, rfl⟩

/-- Settles O52: reset memory is empty, and no status field is set. -/
theorem invariantHoldsAtReset : Obligations.InvariantHoldsAtReset :=
  State.inv_of_no_status reset_mem_wf rfl rfl ⟨rfl, rfl⟩

/-- Settles O50: a cell of the image holds its value, which a byte holds whole, and the other cells read as in an empty
memory. -/
theorem loadInstallsTheImage : Obligations.LoadInstallsTheImage := by
  intro image existing hlen hvalues
  have hload : load image = .ok (loadedState image) := load_of_wf ((imageWf_iff image).mpr ⟨hlen, hvalues⟩)
  refine ⟨_, hload, hostLoad_of_ok hload existing, rfl, fun k hk => ?_,
    fun k hk hk' => memRead_loadedState_of_ge hk hk'⟩
  obtain ⟨hnonneg, hle⟩ := hvalues _ (List.getElem_mem hk)
  rw [memRead_loadedState hlen hk]
  exact (uint_wrap8 image[k]).trans (Int.emod_eq_of_lt hnonneg (Int.lt_add_one_of_le hle))

/-- Settles O51: an image with either fault is not well formed, and the error is that of the one fault where the other is
absent. -/
theorem loadRefusesBadImages : Obligations.LoadRefusesBadImages := by
  intro image existing hbad
  have hwf : ¬ imageWf image = true := by
    rw [imageWf_iff]
    rintro ⟨hlen, hvalues⟩
    obtain hlong | ⟨v, hv, hout⟩ := hbad
    · omega
    · have := hvalues v hv
      omega
  have hload := load_of_not_wf hwf
  refine ⟨_, hload, hostLoad_of_failed hload existing, fun hvalues => loadError_of_values_ok hvalues ?_,
    loadError_of_length_ok⟩
  by_contra hlen
  exact hwf ((imageWf_iff image).mpr ⟨Nat.le_of_not_lt hlen, hvalues⟩)

/-- Settles O49: the empty image leaves no cell written, and the fields are those of `State.reset`. -/
theorem resetValues : Obligations.ResetValues :=
  ⟨load_of_wf rfl, fun _ => rfl, rfl, rfl, rfl, rfl, rfl, rfl, rfl, rfl, rfl, rfl, rfl⟩

end Sys2Proof.Machine
end

section
/-! PROOFS. The statements about single instructions and the registers that remain: the step of an instruction of one byte,
what writes and reads `B`, the fault record and the record of events, and a subtraction after an addition; then the
statements. -/

namespace Sys2Proof.Machine

/-! ### The step of an instruction of one byte -/

theorem State.pastInstr_of_no_operand {i : Instr} (h : i.operand = none) (s : State) :
    s.pastInstr i = { s with pc := s.pc + 1 } := by
  simp [State.pastInstr, h]

/-- The case of format N: the rule runs with `PC` at `p + 1`. -/
theorem stepWith_of_fetches_no_operand {f : OpcodeMap} (hf : f.wf = true) {s : State} {i : Instr} (h : s.fetches f i)
    (hi : i.operand = none) : stepWith f s = .next (effect i { s with pc := s.pc + 1 }) := by
  rw [stepWith_of_fetches hf h, State.pastInstr_of_no_operand hi]

/-! ### What writes and reads `B` and the fault record -/

theorem effect_b_of_not_writer {i : Instr} (h : i.mnemonic ∉ [Mnemonic.ldb, .ldib, .add, .addi, .sub, .subi])
    (s : State) : (effect i s).b = s.b := by
  cases i <;> simp [Instr.mnemonic] at h <;> rfl

theorem effect_with_b {i : Instr} (h : i.mnemonic ≠ .stb) (s : State) (v : Byte) :
    effect i { s with b := v } =
      { effect i s with b :=
          if i.mnemonic ∈ [Mnemonic.ldb, .ldib, .add, .addi, .sub, .subi] then (effect i s).b else v } := by
  cases i <;> simp [Instr.mnemonic] at h <;> rfl

theorem effect_with_faultRecord (i : Instr) (s : State) (e : Bool) (op p : Byte) :
    effect i { s with fault := e, faultOpcode := op, faultPc := p } =
      { effect i s with fault := e, faultOpcode := op, faultPc := p } := by
  cases i <;> rfl

theorem statusPort_effect (i : Instr) (s : State) :
    statusPort (effect i s) = { statusPort s with halted := (effect i s).halted } := by
  simp [statusPort]

/-! ### The record of events (R172) -/

/-- The events an instruction emits: OUTA and OUTI emit the new `O`. -/
def emitted (i : Instr) (s : State) : List Byte :=
  if i.mnemonic = .outa ∨ i.mnemonic = .outi then [(effect i s).o] else []

theorem emitted_of_not_output {i : Instr} (h : ¬ (i.mnemonic = .outa ∨ i.mnemonic = .outi)) (s : State) :
    emitted i s = [] :=
  if_neg h

/-- An instruction appends what it emits to whatever record it starts from, and the record reaches nothing else. -/
theorem effect_with_outEvents (i : Instr) (s : State) (earlier : List Byte) :
    effect i { s with outEvents := earlier } = { effect i s with outEvents := earlier ++ emitted i s } := by
  cases i with
  | outa => rfl
  | outi x => rfl
  | _ =>
    rw [emitted_of_not_output (by simp [Instr.mnemonic]), List.append_nil]
    rfl

theorem effect_outEvents (i : Instr) (s : State) : (effect i s).outEvents = s.outEvents ++ emitted i s :=
  congrArg State.outEvents (effect_with_outEvents i s s.outEvents)

theorem opcodeByte_eq_iff {f : OpcodeMap} (hf : f.wf = true) (m n : Mnemonic) :
    opcodeByte f m = opcodeByte f n ↔ m = n :=
  ⟨opcodeByte_inj hf, fun h => by rw [h]⟩

theorem ne_opcodeByte_of_invalid {f : OpcodeMap} (hf : f.wf = true) {op : Byte} (h : mnemonicOf f op = none)
    (m : Mnemonic) : op ≠ opcodeByte f m := by
  rintro rfl
  rw [mnemonicOf_opcodeByte hf] at h
  cases h

/-! ### A subtraction after an addition (R157) -/

/-- A sum is at least its summand exactly when it did not wrap. -/
theorem le_add_iff_no_carry (a v : Byte) : v.toNat ≤ (a + v).toNat ↔ ¬ 255 < a.toNat + v.toNat := by
  have := a.isLt
  have := v.isLt
  rw [BitVec.toNat_add]
  omega

theorem arithmetic_sub_arithmetic_add (v : Byte) (s : State) :
    arithmetic aluSub v (arithmetic aluAdd v s) =
      { s with b := v, c := !(arithmetic aluAdd v s).c, z := decide (s.a = 0) } := by
  rw [arithmetic_sub, arithmetic_add]
  simp only [BitVec.add_sub_cancel, le_add_iff_no_carry, decide_not]

/-- Subtracting 1 borrows exactly from 0. -/
theorem arithmetic_sub_one_c (s : State) : (arithmetic aluSub 1 s).c = false ↔ s.a = 0 := by
  rw [arithmetic_sub, decide_eq_false_iff_not, ← BitVec.toNat_inj]
  exact Nat.not_le.trans Nat.lt_one_iff

/-! ### The statements -/

/-- Settles O13: the step's `PC` is the one the instruction's `effect` leaves, started past its 1 or 2 bytes. -/
theorem pcAtEndOfStep : Obligations.PcAtEndOfStep := by
  refine fun f s hf => ⟨fun h => ⟨_, stepWith_of_fetchesInvalid f h, rfl⟩,
    fun i h => ⟨_, stepWith_of_fetches hf h, ?_⟩⟩
  cases i with
  | jmpnc x => exact congrArg State.pc (effect_jmpnc x (s.pastInstr (.jmpnc x)))
  | _ => rfl

/-- Settles O16: the frame of `B`, and its noninterference beside STB. -/
theorem registerBReadersAndWriters : Obligations.RegisterBReadersAndWriters := by
  refine ⟨?writers, ?readers, fun r v s h => readReg_writeReg_of_ne h.symm v s, rfl⟩
  case writers =>
    intro i s t h hb
    by_contra hi
    exact hb (eq_effect_of_exec h ▸ effect_b_of_not_writer hi s)
  case readers =>
    intro i s t t' v hi h h'
    obtain rfl := eq_effect_of_exec h
    obtain rfl := eq_effect_of_exec h'
    rw [effect_with_b hi]
    exact ⟨rfl, fun hw => if_pos hw⟩

/-- Settles O20: a step takes the exception exactly on a byte above 16, and an instruction carries the record along. -/
theorem faultRecordIsSetOnlyByTheException : Obligations.FaultRecordIsSetOnlyByTheException := by
  refine ⟨?step, ?readers, rfl⟩
  case step =>
    intro f s t hf h
    have hinvalid := mnemonicOf_eq_none_iff hf (memRead s s.pc)
    obtain ⟨-, ⟨hm, rfl⟩ | ⟨m, hm, rfl⟩⟩ := step_cases h
    · rw [if_pos (hinvalid.mp hm)]
      exact ⟨rfl, rfl, rfl⟩
    · rw [if_neg (mt hinvalid.mpr (by simp [hm])), statusPort_effect]
      rfl
  case readers =>
    intro i s t t' e op p h h'
    obtain rfl := eq_effect_of_exec h
    rw [eq_effect_of_exec h', effect_with_faultRecord]

/-- Settles O39: ADDI and SUBI run the shared body, and the sum's carry is the difference's borrow. -/
theorem subtractionUndoesAddition : Obligations.SubtractionUndoesAddition :=
  ⟨fun v s => ⟨_, _, exec_eq (.addi v) s, exec_eq (.subi v) _, arithmetic_sub_arithmetic_add v s⟩,
    fun s => ⟨_, exec_eq (.subi 1) s, arithmetic_sub_one_c s⟩⟩

/-- Settles O42: the exception emits nothing, an instruction what `emitted` says, from whatever record. -/
theorem onlyOutputStepsEmitEvents : Obligations.OnlyOutputStepsEmitEvents := by
  intro f s t hf h
  obtain ⟨hs, ⟨hm, rfl⟩ | ⟨m, hm, rfl⟩⟩ := step_cases h
  · refine ⟨[], (List.append_nil _).symm, ?_, fun earlier => ?_⟩
    · simp [ne_opcodeByte_of_invalid hf hm]
    · rw [List.append_nil]
      exact stepWith_of_invalid (s := { s with outEvents := earlier }) hs hm
  · refine ⟨_, effect_outEvents _ _, ?_, fun earlier => ?_⟩
    · simp only [← opcodeByte_of_mnemonicOf hm, opcodeByte_eq_iff hf, emitted, buildInstr_mnemonic]
    · rw [← effect_with_outEvents]
      exact stepWith_of_valid (s := { s with outEvents := earlier }) hs hm

/-- Settles O40: `effect` of OUTA, in `exec` and in the step that fetches it. -/
theorem outaOutputsA : Obligations.OutaOutputsA :=
  fun s => ⟨exec_eq .outa s, fun _ hf h => stepWith_of_fetches_no_operand hf h rfl⟩

/-- Settles O41: `effect` of OUTI, in `exec` and in the step that fetches it. -/
theorem outiOutputsTheImmediate : Obligations.OutiOutputsTheImmediate :=
  fun x s => ⟨exec_eq (.outi x) s, fun _ hf h => stepWith_of_fetches_operand hf h rfl⟩

/-- Settles O43: `effect` of HLT, in `exec` and in the step that fetches it, leaves a core that does not run. -/
theorem hltHaltsTheCore : Obligations.HltHaltsTheCore := by
  refine fun s => ⟨exec_eq .hlt s, fun f hf h => ⟨_, stepWith_of_fetches_no_operand hf h rfl, rfl, ?_⟩⟩
  rw [exists_stepWith_eq_next_iff, State.running_iff]
  rintro ⟨hh, -⟩
  cases hh

end Sys2Proof.Machine
end

section
/-! PROOFS. 20_memory.md, the accesses of a step: first what an instruction's accesses say of its effect, then what the
accesses of a step are and say of the step, then the statements. -/

namespace Sys2Proof.Machine

/-! ### An instruction's accesses and its effect -/

/-- What the memory a write leaves answers, in any state that holds it. -/
theorem memRead_of_mem_eq_write {s t : State} {x v : Byte} (h : t.mem = Memory.write s.mem x.toNat v) (addr : Byte) :
    memRead t addr = if addr = x then v else memRead s addr := by
  simp only [memRead, h, Memory.read_write, BitVec.toNat_inj]

theorem memRead_effect_of_written {i : Instr} {s : State} {addr v : Byte} (h : .write addr v ∈ dataAccess i s) :
    memRead (effect i s) addr = v := by
  obtain ⟨-, hnone⟩ | ⟨x, w, -, hwrite, hmem⟩ := effect_mem_cases i s
  · exact absurd h (hnone addr v)
  · rw [hwrite, List.mem_singleton, Access.write.injEq] at h
    obtain ⟨rfl, rfl⟩ := h
    rw [memRead_of_mem_eq_write hmem, if_pos rfl]

theorem memRead_effect_of_not_written {i : Instr} {s : State} {addr : Byte}
    (h : ∀ v, .write addr v ∉ dataAccess i s) : memRead (effect i s) addr = memRead s addr := by
  obtain ⟨hmem, -⟩ | ⟨x, w, -, hwrite, hmem⟩ := effect_mem_cases i s
  · rw [memRead, hmem, memRead]
  · have hne : addr ≠ x := by
      rintro rfl
      exact h w (by rw [hwrite]; exact List.mem_singleton_self _)
    rw [memRead_of_mem_eq_write hmem, if_neg hne]

/-- A data access that writes is that of a STA or a STB, at its operand byte. -/
theorem eq_store_of_write_mem_dataAccess {i : Instr} {s : State} {addr v : Byte}
    (h : .write addr v ∈ dataAccess i s) : i = .sta addr ∨ i = .stb addr := by
  obtain ⟨-, hnone⟩ | ⟨x, w, hi, hwrite, -⟩ := effect_mem_cases i s
  · exact absurd h (hnone addr v)
  · rw [hwrite, List.mem_singleton, Access.write.injEq] at h
    rwa [h.1]

section
variable {i : Instr} {s : State} {m : Memory}
  (h : ∀ addr v, .read addr v ∈ dataAccess i s → memRead { s with mem := m } addr = v)
include h

/-- Over a memory that agrees on the cell it reads, an instruction makes the same access. -/
theorem dataAccess_with_mem : dataAccess i { s with mem := m } = dataAccess i s := by
  cases i with
  | lda x | ldb x | add x | sub x => exact congrArg (fun v => [Access.read x v]) (h x _ (List.mem_singleton_self _))
  | _ => rfl

/-- Over a memory that agrees on the cell it reads, an instruction leaves the same state but for memory: one that reads a
cell does what its immediate form does with the value read. -/
theorem effect_with_mem : { effect i { s with mem := m } with mem := (effect i s).mem } = effect i s := by
  cases i with
  | lda x => exact congrArg (fun v => effect (.ldia v) s) (h x _ (List.mem_singleton_self _))
  | ldb x => exact congrArg (fun v => effect (.ldib v) s) (h x _ (List.mem_singleton_self _))
  | add x => exact congrArg (fun v => effect (.addi v) s) (h x _ (List.mem_singleton_self _))
  | sub x => exact congrArg (fun v => effect (.subi v) s) (h x _ (List.mem_singleton_self _))
  | _ => rfl

end

/-! ### The accesses of a step -/

theorem stepAccesses_of_stopped (f : OpcodeMap) {s : State} (h : ¬ s.running = true) : stepAccesses f s = [] := by
  rw [← stoppedCore_none_iff] at h
  obtain ⟨stop, hstop⟩ := Option.ne_none_iff_exists'.mp h
  simp [stepAccesses, hstop]

theorem stepAccesses_of_invalid {f : OpcodeMap} {s : State} (hs : s.running = true)
    (hm : mnemonicOf f (memRead s s.pc) = none) : stepAccesses f s = [.read s.pc (memRead s s.pc)] := by
  simp [stepAccesses, (stoppedCore_none_iff s).mpr hs, hm]

theorem stepAccesses_of_valid {f : OpcodeMap} {s : State} {m : Mnemonic} (hs : s.running = true)
    (hm : mnemonicOf f (memRead s s.pc) = some m) :
    stepAccesses f s = .read s.pc (memRead s s.pc) ::
      (operandAccess m s ++ dataAccess (buildInstr m (memRead s (s.pc + 1))) s) := by
  simp [stepAccesses, (stoppedCore_none_iff s).mpr hs, hm]

theorem operandAccess_of_no_operand {m : Mnemonic} (h : hasOperand m = false) (s : State) : operandAccess m s = [] := by
  simp [operandAccess, h]

theorem operandAccess_of_operand {m : Mnemonic} (h : hasOperand m = true) (s : State) :
    operandAccess m s = [.read (s.pc + 1) (memRead s (s.pc + 1))] := by
  simp [operandAccess, h]

/-- The accesses of a step that fetches `i`: the opcode, the operand byte if there is one, and the data access. -/
theorem stepAccesses_of_fetches {f : OpcodeMap} (hf : f.wf = true) {s : State} {i : Instr} (h : s.fetches f i) :
    stepAccesses f s = .read s.pc (memRead s s.pc) ::
      (i.operand.toList.map (.read (s.pc + 1)) ++ dataAccess i s) := by
  obtain ⟨hs, hopcode, hoperand⟩ := h
  have hm : mnemonicOf f (memRead s s.pc) = some i.mnemonic := by rw [hopcode, mnemonicOf_opcodeByte hf]
  rw [stepAccesses_of_valid hs hm]
  rcases hoperand with hx | hx
  · obtain ⟨hi, hop⟩ := buildInstr_of_no_operand hx (memRead s (s.pc + 1))
    rw [hi, operandAccess_of_no_operand hop, hx]
    rfl
  · obtain ⟨hi, hop⟩ := buildInstr_of_operand hx
    rw [hi, operandAccess_of_operand hop, hx]
    rfl

/-- The writes of a step are those of its instruction: the fetches read. -/
theorem write_mem_stepAccesses_iff {f : OpcodeMap} {s : State} {m : Mnemonic} (hs : s.running = true)
    (hm : mnemonicOf f (memRead s s.pc) = some m) (addr v : Byte) :
    .write addr v ∈ stepAccesses f s ↔ .write addr v ∈ dataAccess (buildInstr m (memRead s (s.pc + 1))) s := by
  rw [stepAccesses_of_valid hs hm]
  cases hop : hasOperand m with
  | false => simp [operandAccess_of_no_operand hop]
  | true => simp [operandAccess_of_operand hop]

/-- A step changes memory by its one write. -/
theorem memRead_of_stepWith {f : OpcodeMap} {s t : State} (h : stepWith f s = .next t) (addr : Byte) :
    (∀ v, .write addr v ∈ stepAccesses f s → memRead t addr = v) ∧
      ((∀ v, .write addr v ∉ stepAccesses f s) → memRead t addr = memRead s addr) := by
  obtain ⟨hs, ⟨hm, rfl⟩ | ⟨m, hm, rfl⟩⟩ := step_cases h
  · rw [stepAccesses_of_invalid hs hm]
    exact ⟨by simp, fun _ => rfl⟩
  · simp only [write_mem_stepAccesses_iff hs hm, ← dataAccess_pastInstr _ (buildInstr m (memRead s (s.pc + 1))) s]
    exact ⟨fun v hv => memRead_effect_of_written hv, fun hv => memRead_effect_of_not_written hv⟩

/-! ### A step over another memory that agrees on the cells the step reads -/

section
variable {f : OpcodeMap} {s : State} {m : Memory}
  (h : ∀ addr v, .read addr v ∈ stepAccesses f s → memRead { s with mem := m } addr = v)
include h

theorem opcode_with_mem (hs : s.running = true) : memRead { s with mem := m } s.pc = memRead s s.pc := by
  apply h
  cases hm : mnemonicOf f (memRead s s.pc) with
  | none => simp [stepAccesses_of_invalid hs hm]
  | some n => simp [stepAccesses_of_valid hs hm]

/-- The step fetches the same instruction, by the same accesses: it reads the operand byte where there is one. -/
theorem fetch_with_mem (hs : s.running = true) {n : Mnemonic} (hm : mnemonicOf f (memRead s s.pc) = some n) :
    buildInstr n (memRead { s with mem := m } (s.pc + 1)) = buildInstr n (memRead s (s.pc + 1)) ∧
      operandAccess n { s with mem := m } = operandAccess n s := by
  cases hop : hasOperand n with
  | false =>
    rw [operandAccess_of_no_operand hop, operandAccess_of_no_operand hop]
    have hnone : (buildInstr n (memRead s (s.pc + 1))).operand = none := by simp [hop]
    have hi := (buildInstr_of_no_operand hnone (memRead { s with mem := m } (s.pc + 1))).1
    rw [buildInstr_mnemonic] at hi
    exact ⟨hi, rfl⟩
  | true =>
    have hx : memRead { s with mem := m } (s.pc + 1) = memRead s (s.pc + 1) := by
      apply h
      simp [stepAccesses_of_valid hs hm, operandAccess_of_operand hop]
    rw [operandAccess_of_operand hop, operandAccess_of_operand hop, hx]
    exact ⟨rfl, rfl⟩

theorem dataReads_with_mem (hs : s.running = true) {n : Mnemonic} (hm : mnemonicOf f (memRead s s.pc) = some n)
    (addr v : Byte) (hread : .read addr v ∈ dataAccess (buildInstr n (memRead s (s.pc + 1))) s) :
    memRead { s with mem := m } addr = v := by
  apply h
  rw [stepAccesses_of_valid hs hm]
  exact List.mem_cons_of_mem _ (List.mem_append_right _ hread)

theorem stepAccesses_with_mem : stepAccesses f { s with mem := m } = stepAccesses f s := by
  by_cases hs : s.running = true
  · have hopcode := opcode_with_mem h hs
    cases hm : mnemonicOf f (memRead s s.pc) with
    | none =>
      rw [stepAccesses_of_invalid hs hm, stepAccesses_of_invalid (s := { s with mem := m }) hs (by rw [hopcode, hm]),
        hopcode]
    | some n =>
      obtain ⟨hi, hoperand⟩ := fetch_with_mem h hs hm
      rw [stepAccesses_of_valid hs hm, stepAccesses_of_valid (s := { s with mem := m }) hs (by rw [hopcode, hm]),
        hopcode, hi, hoperand, dataAccess_with_mem (dataReads_with_mem h hs hm)]
  · rw [stepAccesses_of_stopped f hs, stepAccesses_of_stopped f (s := { s with mem := m }) hs]

theorem stepWith_with_mem {t : State} (ht : stepWith f s = .next t) :
    ∃ t', stepWith f { s with mem := m } = .next t' ∧ { t' with mem := t.mem } = t := by
  obtain ⟨hs, ⟨hm, rfl⟩ | ⟨n, hm, rfl⟩⟩ := step_cases ht
  · have hopcode := opcode_with_mem h hs
    refine ⟨_, stepWith_of_invalid (s := { s with mem := m }) hs (by rw [hopcode, hm]), ?_⟩
    rw [hopcode]
    rfl
  · have hopcode := opcode_with_mem h hs
    refine ⟨_, stepWith_of_valid (s := { s with mem := m }) hs (by rw [hopcode, hm]), ?_⟩
    rw [(fetch_with_mem h hs hm).1]
    refine effect_with_mem (s := s.pastInstr _) (m := m) fun addr v hread => ?_
    rw [dataAccess_pastInstr] at hread
    exact dataReads_with_mem h hs hm addr v hread

end

/-! ### A store to the cell the next step fetches from -/

theorem memRead_of_store_at_pc {s t : State} {v : Byte} (h : t.mem = Memory.write s.mem t.pc.toNat v) :
    memRead t t.pc = v ∧ memRead t (t.pc + 1) = memRead s (t.pc + 1) := by
  have hne : t.pc + 1 ≠ t.pc := by bv_omega
  rw [memRead_of_mem_eq_write h, memRead_of_mem_eq_write h, if_pos rfl, if_neg hne]
  exact ⟨rfl, rfl⟩

/-! ### The statements -/

/-- Settles O22: a cell that no data access writes reads as before, and the only writes are those of STA and STB. -/
theorem onlyStoresChangeMemory : Obligations.OnlyStoresChangeMemory := by
  intro i s t h addr haddr
  obtain rfl := eq_effect_of_exec h
  exact memRead_effect_of_not_written fun v hv => haddr addr (eq_store_of_write_mem_dataAccess hv) rfl

/-- Settles O23: the accesses of the fetches and of the data access, row by row. -/
theorem stepMakesTheseAccesses : Obligations.StepMakesTheseAccesses := by
  refine fun f s hf => ⟨fun h => stepAccesses_of_invalid h.1 (mnemonicOf_eq_none_of_gt h.2), fun i h => ?_,
    fun t h addr => memRead_of_stepWith h addr⟩
  rw [stepAccesses_of_fetches hf h]
  cases i <;> rfl

/-- Settles O24: the cells read give the same instruction, accesses and next state but for memory; either step changes
its memory by the same write. -/
theorem stepDependsOnlyOnCellsItReads : Obligations.StepDependsOnlyOnCellsItReads := by
  intro f s m h
  have haccesses := stepAccesses_with_mem h
  refine ⟨haccesses, fun t ht => ?_⟩
  obtain ⟨t', ht', hsame⟩ := stepWith_with_mem h ht
  refine ⟨t', ht', hsame, fun addr => ?_⟩
  obtain ⟨hwritten, -⟩ := memRead_of_stepWith ht addr
  obtain ⟨hwritten', hkept'⟩ := memRead_of_stepWith ht' addr
  rw [haccesses] at hwritten' hkept'
  split
  · next hw =>
    obtain ⟨v, hv⟩ := hw
    rw [hwritten v hv, hwritten' v hv]
  · next hw => exact hkept' fun v hv => hw ⟨v, hv⟩

/-- Settles O25: after the store the byte at the new `PC` is the stored one, and the byte after it is as before. -/
theorem storeIsSeenByTheNextFetch : Obligations.StoreIsSeenByTheNextFetch := by
  intro f s v hf hstore
  obtain ⟨t, hstep, hs, hpc, hmem⟩ : ∃ t, stepWith f s = .next t ∧ t.running = true ∧ t.pc = s.pc + 2 ∧
      t.mem = Memory.write s.mem t.pc.toNat v := by
    obtain ⟨h, rfl⟩ | ⟨h, rfl⟩ := hstore
    · exact ⟨_, stepWith_of_fetches_operand hf h rfl, h.1, rfl, rfl⟩
    · exact ⟨_, stepWith_of_fetches_operand hf h rfl, h.1, rfl, rfl⟩
  obtain ⟨hopcode, hnext⟩ := memRead_of_store_at_pc hmem
  have hafter : s.pc + 3 = t.pc + 1 := by rw [hpc, BitVec.add_assoc]; rfl
  refine ⟨t, hstep, hpc, fun i hv hoperand => ⟨hs, hopcode.trans hv, ?fetched⟩, fun hv => ?faults⟩
  case fetched => rwa [hnext, ← hafter]
  case faults => exact ⟨_, stepWith_of_fetchesInvalid f ⟨hs, by rwa [hopcode]⟩, rfl, hopcode, hpc⟩

end Sys2Proof.Machine
end
